-- ==== Sys2Proof/Word.lean ====
section
/-! DEFINITION. The data word, and the names that the fields of an instruction word stand for.

A W-bit signed two's-complement value is held as the INTEGER it denotes, an `Int` (00_scope.md R5, R11: "a
value in pseudocode is a mathematical integer"). The width W is a parameter of one machine (`Config.w`), so
it is no part of the type: `State.Inv` says that every stored value lies in `[-2^(W-1), 2^(W-1))`, and a
statement says that every step keeps that. DESIGN CHOICE, safe: log entry 3. -/

namespace Sys2Proof

/-- The sixteen operations, in the order of the opcode map (30_encoding.md R67). The name `bne` means
branch if NEGATIVE (43_control_transfer.md R172). -/
inductive Operation where
  | hlt | lda | str | add | sub | and | orr | xor | not | lsl | lsr | bze | bne | bpo | bnz | jmp
  deriving DecidableEq, Repr

/-- The three addressing modes, in their order of indirection depth (30_encoding.md R68). -/
inductive Mode where
  | immediate
  | direct
  | indirect
  deriving DecidableEq, Repr

end Sys2Proof
end

