-- ==== Sys2Proof/Config.lean ====
section
/-! DEFINITION. What is fixed for one machine: the parameters of 00_scope.md R5 to R9. There is no free
value: 93_implementation_defined.md leaves no result unconstrained. -/

namespace Sys2Proof

/-- ARITH_OVF (00_scope.md R7): what ADD and SUB do when the exact result is no W-bit value. -/
inductive ArithOvf where
  | fault
  | wrap
  deriving DecidableEq, Repr

/-- LSR_KIND (00_scope.md R8): whether LSR copies the sign bit or shifts in zeros. -/
inductive LsrKind where
  | arithmetic
  | logical
  deriving DecidableEq, Repr

/-- STR_DEST (00_scope.md R9): which register index STR writes. -/
inductive StrDest where
  | effective
  | literal
  | location
  deriving DecidableEq, Repr

/-- The parameters of one machine (00_scope.md, the table under R9). The field widths O = 4, A = 2 and
V = 16 are constants, not parameters (R4), and stand in the decoder's numbers. -/
structure Config where
  /-- `W`, the data width in bits (R5). -/
  w : Nat
  /-- `MEM_SIZE`, the number of cells of the register array (R6). -/
  memSize : Nat
  arithOvf : ArithOvf
  lsrKind : LsrKind
  strDest : StrDest
  deriving DecidableEq, Repr

/-- The spec's defaults (00_scope.md R5 to R9). -/
def Config.default : Config where
  w := 64
  memSize := 1024
  arithOvf := .fault
  lsrKind := .arithmetic
  strDest := .effective

/-- The values the parameters may take: `W >= 23` (R5) and `1 <= MEM_SIZE <= 2^(W-1) - 1` (R6). -/
abbrev Config.Valid (c : Config) : Prop :=
  23 ≤ c.w ∧ 1 ≤ c.memSize ∧ (c.memSize : Int) ≤ 2 ^ (c.w - 1) - 1

end Sys2Proof
end

