-- ==== Sys2Proof/Syntax.lean ====
section
/-! DEFINITION. The instructions: one constructor for each row of spec/opcode_table.json, each with the
two other fields of the one format (30_encoding.md R60): the mode and the value. -/

namespace Sys2Proof

/-- A decoded instruction `(op, mode, val)` (30_encoding.md R63). Every operation takes every mode and
every value of the value field (R69). -/
inductive Instr where
  | hlt (mode : Mode) (val : Nat)
  | lda (mode : Mode) (val : Nat)
  | str (mode : Mode) (val : Nat)
  | add (mode : Mode) (val : Nat)
  | sub (mode : Mode) (val : Nat)
  | and (mode : Mode) (val : Nat)
  | orr (mode : Mode) (val : Nat)
  | xor (mode : Mode) (val : Nat)
  | not (mode : Mode) (val : Nat)
  | lsl (mode : Mode) (val : Nat)
  | lsr (mode : Mode) (val : Nat)
  | bze (mode : Mode) (val : Nat)
  | bne (mode : Mode) (val : Nat)
  | bpo (mode : Mode) (val : Nat)
  | bnz (mode : Mode) (val : Nat)
  | jmp (mode : Mode) (val : Nat)
  deriving DecidableEq, Repr

/-- The instruction's operation. -/
def Instr.operation : Instr → Operation
  | .hlt _ _ => .hlt
  | .lda _ _ => .lda
  | .str _ _ => .str
  | .add _ _ => .add
  | .sub _ _ => .sub
  | .and _ _ => .and
  | .orr _ _ => .orr
  | .xor _ _ => .xor
  | .not _ _ => .not
  | .lsl _ _ => .lsl
  | .lsr _ _ => .lsr
  | .bze _ _ => .bze
  | .bne _ _ => .bne
  | .bpo _ _ => .bpo
  | .bnz _ _ => .bnz
  | .jmp _ _ => .jmp

/-- The instruction's addressing mode. -/
def Instr.mode : Instr → Mode
  | .hlt m _ => m
  | .lda m _ => m
  | .str m _ => m
  | .add m _ => m
  | .sub m _ => m
  | .and m _ => m
  | .orr m _ => m
  | .xor m _ => m
  | .not m _ => m
  | .lsl m _ => m
  | .lsr m _ => m
  | .bze m _ => m
  | .bne m _ => m
  | .bpo m _ => m
  | .bnz m _ => m
  | .jmp m _ => m

/-- The instruction's value field. -/
def Instr.val : Instr → Nat
  | .hlt _ v => v
  | .lda _ v => v
  | .str _ v => v
  | .add _ v => v
  | .sub _ v => v
  | .and _ v => v
  | .orr _ v => v
  | .xor _ v => v
  | .not _ v => v
  | .lsl _ v => v
  | .lsr _ v => v
  | .bze _ v => v
  | .bne _ v => v
  | .bpo _ v => v
  | .bnz _ v => v
  | .jmp _ v => v

/-- The instruction of an operation, a mode and a value. -/
def Instr.make : Operation → Mode → Nat → Instr
  | .hlt, m, v => .hlt m v
  | .lda, m, v => .lda m v
  | .str, m, v => .str m v
  | .add, m, v => .add m v
  | .sub, m, v => .sub m v
  | .and, m, v => .and m v
  | .orr, m, v => .orr m v
  | .xor, m, v => .xor m v
  | .not, m, v => .not m v
  | .lsl, m, v => .lsl m v
  | .lsr, m, v => .lsr m v
  | .bze, m, v => .bze m v
  | .bne, m, v => .bne m v
  | .bpo, m, v => .bpo m v
  | .bnz, m, v => .bnz m v
  | .jmp, m, v => .jmp m v

end Sys2Proof
end

