-- ==== Sys2Proof/WellFormed.lean ====
section
/-! DEFINITION. Which instructions have a word: the value field is an unsigned 16-bit integer. -/

namespace Sys2Proof

/-- The value fits the 16-bit value field, `0 <= val < 2^16` (30_encoding.md R60, R64, R66). The
operation and the mode need no check: the types hold only the legal ones. A negative value is no term
of `Instr`; `encodeFields` refuses it. -/
def Instr.wellFormed (i : Instr) : Bool :=
  decide (i.val < 0x10000)

end Sys2Proof
end

