-- ==== Sys2Proof/Decode.lean ====
section
/-! DEFINITION. The word codec (30_encoding.md section 1 and 2): the decoder, total on every integer, and
after it the encoder. Lean's `/` and `%` on `Int` with a positive divisor are the floor division and
modulus of 00_scope.md R11. -/

namespace Sys2Proof

/-- The operation of an opcode code (30_encoding.md R67); a code outside `0 .. 15` is no operation (R63).
The numbers are the spec's decision D2. -/
def Operation.ofCode : Int → Option Operation
  | 0 => some .hlt
  | 1 => some .lda
  | 2 => some .str
  | 3 => some .add
  | 4 => some .sub
  | 5 => some .and
  | 6 => some .orr
  | 7 => some .xor
  | 8 => some .not
  | 9 => some .lsl
  | 10 => some .lsr
  | 11 => some .bze
  | 12 => some .bne
  | 13 => some .bpo
  | 14 => some .bnz
  | 15 => some .jmp
  | _ => none

/-- The mode of a mode code (30_encoding.md R68); code 3 is illegal (R70). The numbers are the spec's
decision D3. -/
def Mode.ofCode : Int → Option Mode
  | 0 => some .immediate
  | 1 => some .direct
  | 2 => some .indirect
  | _ => none

/-- `opcode = word div 2^18` (30_encoding.md R62). -/
def opcodeField (word : Int) : Int := word / 0x40000

/-- `mode = (word mod 2^18) div 2^16` (30_encoding.md R62). -/
def modeField (word : Int) : Int := word % 0x40000 / 0x10000

/-- `value = word mod 2^16` (30_encoding.md R62). -/
def valueField (word : Int) : Int := word % 0x10000

/-- `decode(word)` (30_encoding.md R63): `none` is the decoder's rejection, of every negative word, every
word of `2^22` or more, and every word with mode field 3 (R70). -/
def decode (word : Int) : Option Instr :=
  match Operation.ofCode (opcodeField word), Mode.ofCode (modeField word) with
  | some op, some m => some (Instr.make op m (valueField word).toNat)
  | some _, none => none
  | none, _ => none

/-- The opcode code of an operation (30_encoding.md R67). -/
def Operation.code : Operation → Nat
  | .hlt => 0
  | .lda => 1
  | .str => 2
  | .add => 3
  | .sub => 4
  | .and => 5
  | .orr => 6
  | .xor => 7
  | .not => 8
  | .lsl => 9
  | .lsr => 10
  | .bze => 11
  | .bne => 12
  | .bpo => 13
  | .bnz => 14
  | .jmp => 15

/-- The mode code of a mode (30_encoding.md R68). -/
def Mode.code : Mode → Nat
  | .immediate => 0
  | .direct => 1
  | .indirect => 2

/-- `encode(op, mode, val) = op*2^18 + mode*2^16 + val` (30_encoding.md R64). `none` is the encoder's
overflow fault, for a value outside `[0, 2^16)`, a negative one among them; it is an error of whoever
encodes, never a fault of the machine (60_exceptions.md R192). -/
def encodeFields (op : Operation) (m : Mode) (val : Int) : Option Int :=
  if 0 ≤ val ∧ val.toNat < 0x10000 then
    some ((op.code : Int) * 0x40000 + (m.code : Int) * 0x10000 + val)
  else none

/-- The word of an instruction (30_encoding.md R64); `none` for one that is not well formed. -/
def encode (i : Instr) : Option Int :=
  encodeFields i.operation i.mode (i.val : Int)

/-- The "more indirect" neighbour of a mode, a library function the engine does not use
(30_encoding.md R68). -/
def Mode.moreIndirect : Mode → Option Mode
  | .immediate => some .direct
  | .direct => some .indirect
  | .indirect => none

/-- The "more direct" neighbour of a mode, a library function the engine does not use
(30_encoding.md R68). -/
def Mode.moreDirect : Mode → Option Mode
  | .immediate => none
  | .direct => some .immediate
  | .indirect => some .direct

/-- What the decoder reads from an opcode-table row's bits: an instruction is one word (30_encoding.md R71)
whose bit `k` is bit `k` of the integer (R61), so the row's bits ARE the word; every bit from `nbits` on
is 0. -/
def decodeTableWord (nbits w : Nat) : Option Instr :=
  decode ((w % 2 ^ nbits : Nat) : Int)

end Sys2Proof
end

