-- ==== Sys2Proof/Machine/State.lean ====
section
/-! DEFINITION. The architectural state (10_state.md R20), the reasons a step can stop, and the state after
reset (R32). -/

namespace Sys2Proof.Machine

/-- The register array `reg[0 .. MEM_SIZE-1]` (10_state.md R21) as pairs of an index and the W-bit value of
that cell, in one canonical form (`Memory.wf`): indices strictly rising, no cell listed that holds
`Memory.unlisted`. The smallest addressable unit is the whole word (20_memory.md R40, R42, R43), so a pair
holds a word, not a byte. DEDUCED, safe: log entry 4. -/
abbrev Memory := List (Nat × Int)

/-- The six causes of a run-time fault (60_exceptions.md R191). -/
inductive FaultCause where
  /-- Code 1: decode rejects the fetched word. -/
  | decodeFault
  /-- Code 2: `pc` is outside the register array when the step fetches. -/
  | fetchFault
  /-- Code 3: an operand index is outside the register array. -/
  | operandAddressFault
  /-- Code 4: STR's destination is outside the register array. -/
  | storeAddressFault
  /-- Code 5: the exact result of ADD or SUB is no W-bit value and ARITH_OVF is fault. -/
  | arithmeticOverflow
  /-- Code 6: the shift amount of LSL or LSR is negative. -/
  | shiftAmountFault
  deriving DecidableEq, Repr

/-- The fault record `(cause, fpc, info)` (10_state.md R26). -/
structure FaultRecord where
  cause : FaultCause
  /-- The address the faulting step fetched from, or tried to fetch from. -/
  fpc : Int
  /-- The cause's recorded value (60_exceptions.md R191). -/
  info : Int
  deriving DecidableEq, Repr

/-- What `raise <Fault>(info)` names (00_scope.md R12), before the fault is taken. -/
structure Raised where
  cause : FaultCause
  info : Int
  deriving DecidableEq, Repr

/-- The engine's status, derived from the state and not stored in it (10_state.md R28). -/
inductive Status where
  | running
  | halted
  | faulted
  deriving DecidableEq, Repr

/-- The state: the tuple `(reg, pc, acc, halted, fault)` of 10_state.md R20, and beside it the configuration
of this machine, which no step changes (R31). DESIGN CHOICE, safe: log entry 1 says why the configuration
is carried here. -/
structure State where
  /-- The parameters of this machine: the model's own field, not the spec's state. -/
  cfg : Config
  /-- The register array (R21). -/
  reg : Memory
  /-- The program counter (R24). -/
  pc : Int
  /-- The accumulator (R22). -/
  acc : Int
  /-- The halted flag, `completed` in the public interface (R25). -/
  halted : Bool
  /-- The fault record, `none` until a step raises a fault (R26). -/
  fault : Option FaultRecord
  deriving DecidableEq, Repr

/-- Why no step is taken. Both are the terminal states of 40_execution_cycle.md R100, in which no transition
is enabled (R110); a run-time fault of the spec is NOT here: the step that raises it answers a next state
with the fault record written (60_exceptions.md R194). -/
inductive Fault where
  /-- Raised by `step` alone, in a state whose status is halted. Safe: the machine has no step there. -/
  | halted
  /-- Raised by `step` alone, in a state whose status is faulted. Safe: the machine has no step there. -/
  | faulted
  deriving DecidableEq, Repr

/-- What the model answers no state for. -/
inductive Refusal where
  /-- Raised by an arm of `exec` whose instruction has no meaning yet. Safe. No arm does. -/
  | notModelled (mnemonic : String)
  /-- Raised by `launch` alone, for a launch that 70_reset_and_hazards.md R222 calls invalid: "The host must
  not start an invalid launch, and a model refuses it". Safe. -/
  | invalidLaunch
  deriving DecidableEq, Repr

/-- The state after construction with no program and no seed (10_state.md R32, with L = K = 0), under the
spec's default parameters (log entry 2). `launch` gives the reset state of any program, seed and
configuration. -/
def State.reset : State where
  cfg := Config.default
  reg := []
  pc := 0
  acc := 0
  halted := false
  fault := none

end Sys2Proof.Machine
end

