-- ==== Sys2Proof/Machine/Ops.lean ====
section
/-! DEFINITION. The named operations every rule touches the state through (00_scope.md R11, R12): W-bit
arithmetic, the cells of the register array, and taking a fault. -/

namespace Sys2Proof.Machine

/-- `x` is a W-bit signed value (00_scope.md R5). -/
abbrev isWord (w : Nat) (x : Int) : Prop :=
  -2 ^ (w - 1) ≤ x ∧ x < 2 ^ (w - 1)

/-- `u_W(x) = x mod 2^W`, the unsigned reading of the low W bits (00_scope.md R11). -/
def unsignedW (w : Nat) (x : Int) : Nat :=
  (x % 2 ^ w).toNat

/-- `trunc_W(x)`, the two's-complement reading of the low W bits of `x` (00_scope.md R11). -/
def truncW (w : Nat) (x : Int) : Int :=
  if x % 2 ^ w < 2 ^ (w - 1) then x % 2 ^ w else x % 2 ^ w - 2 ^ w

/-- `zext_W(v)`: the value field read as a W-bit value, never sign-extended (00_scope.md R11,
30_encoding.md R66). -/
def zextW (val : Nat) : Int :=
  (val : Int)

/-- What a cell that is not listed holds: every cell beyond the program and the seed is 0 at reset
(10_state.md R32). -/
def Memory.unlisted : Int := 0

/-- The value of one cell of the register array. -/
def Memory.read : Memory → Nat → Int
  | [], _ => Memory.unlisted
  | (a, v) :: rest, i => if a = i then v else Memory.read rest i

/-- The cell `i` set to `v`, kept out of the list when `v` is what an unlisted cell holds. -/
def Memory.cons (i : Nat) (v : Int) (rest : Memory) : Memory :=
  if v = Memory.unlisted then rest else (i, v) :: rest

/-- Writes one cell of the register array, keeping the canonical form. -/
def Memory.write : Memory → Nat → Int → Memory
  | [], i, v => Memory.cons i v []
  | (a, u) :: rest, i, v =>
    if i < a then Memory.cons i v ((a, u) :: rest)
    else if i = a then Memory.cons i v rest
    else (a, u) :: Memory.write rest i v

/-- The canonical form: indices strictly rising, and no cell listed that holds what an unlisted one does. -/
abbrev Memory.wf (m : Memory) : Prop :=
  m.Pairwise (fun c d => c.1 < d.1) ∧ ∀ c ∈ m, c.2 ≠ Memory.unlisted

/-- The words `ws` in the cells from index `i` on. -/
def Memory.ofWords (i : Nat) : List Int → Memory
  | [] => []
  | v :: vs => Memory.cons i v (Memory.ofWords (i + 1) vs)

/-- The range check of 20_memory.md R41: the index `i` names a cell of this machine. -/
abbrev State.inArray (s : State) (i : Int) : Prop :=
  0 ≤ i ∧ i < (s.cfg.memSize : Int)

/-- `reg[i]`, or `none` where the index is outside the register array and the access is not performed
(20_memory.md R41, R42). -/
def State.readCell (s : State) (i : Int) : Option Int :=
  if s.inArray i then some (s.reg.read i.toNat) else none

/-- `reg[i] <- v`, or `none` where the index is outside the register array and the access is not performed
(20_memory.md R41, R42). -/
def State.writeCell (s : State) (i : Int) (v : Int) : Option State :=
  if s.inArray i then some { s with reg := s.reg.write i.toNat v } else none

/-- The cause's code (60_exceptions.md R191). -/
def FaultCause.code : FaultCause → Nat
  | .decodeFault => 1
  | .fetchFault => 2
  | .operandAddressFault => 3
  | .storeAddressFault => 4
  | .arithmeticOverflow => 5
  | .shiftAmountFault => 6

/-- `pc` after a fault of the instruction at `a` (60_exceptions.md R194): the increment stands, unless the
fetch itself failed. -/
def FaultCause.pcAfter (a : Int) : FaultCause → Int
  | .fetchFault => a
  | .decodeFault => a + 1
  | .operandAddressFault => a + 1
  | .storeAddressFault => a + 1
  | .arithmeticOverflow => a + 1
  | .shiftAmountFault => a + 1

/-- TAKING A FAULT (60_exceptions.md R194): the step of the instruction at `a` raises `r`. The record and
`pc` are written, and nothing else changes. There is no return from a fault: no instruction leaves the
terminal state `faulted` (R195). -/
def State.takeFault (s : State) (a : Int) (r : Raised) : State :=
  { s with
    fault := some { cause := r.cause, fpc := a, info := r.info }
    pc := r.cause.pcAfter a }

/-- The address of the instruction that is executing: in the execute phase `pc = a + 1` holds
(40_execution_cycle.md, before R100). DESIGN CHOICE, safe: log entry 7. -/
def State.instrAddr (s : State) : Int :=
  s.pc - 1

/-- A fault raised after the fetch, in the execute phase of the instruction at `instrAddr`. -/
def State.raise (s : State) (r : Raised) : State :=
  s.takeFault s.instrAddr r

end Sys2Proof.Machine
end

