-- ==== Sys2Proof/Machine/Operands.lean ====
section
/-! DEFINITION. Operand resolution in the three modes, and the destination of a store. -/

namespace Sys2Proof.Machine

/-- One operand read: an index outside the array raises OperandAddressFault with that index
(20_memory.md R41, 40_execution_cycle.md R105). -/
def readOperand (s : State) (i : Int) : Except Raised Int :=
  match s.readCell i with
  | some v => .ok v
  | none => .error { cause := .operandAddressFault, info := i }

/-- `resolve(mode, val)`, the effective value (40_execution_cycle.md R105). The first-level read comes before
the second (20_memory.md R49). -/
def resolve (s : State) (mode : Mode) (val : Nat) : Except Raised Int :=
  match mode with
  | .immediate => .ok (zextW val)
  | .direct => readOperand s (zextW val)
  | .indirect =>
    match readOperand s (zextW val) with
    | .ok p => readOperand s p
    | .error r => .error r

/-- Every instruction resolves its operand first (40_execution_cycle.md R105, R107): a fault of the
resolution is taken, and otherwise the instruction's own effect runs on the effective value. -/
def withOperand (s : State) (mode : Mode) (val : Nat)
    (effect : Int → Host.Outcome State Fault Refusal) : Host.Outcome State Fault Refusal :=
  match resolve s mode val with
  | .ok v => effect v
  | .error r => .next (s.raise r)

/-- The destination index of STR, chosen by STR_DEST (41_data_movement.md R122, the table). `v` is the
effective value; in the location reading of indirect mode `reg[val]` is in range, since the resolution
read it (DEDUCED, safe: log entry 11). -/
def storeDest (s : State) (mode : Mode) (val : Nat) (v : Int) : Int :=
  match s.cfg.strDest with
  | .effective => v
  | .literal => zextW val
  | .location =>
    match mode with
    | .immediate => zextW val
    | .direct => zextW val
    | .indirect => s.reg.read val

end Sys2Proof.Machine
end

