-- ==== Sys2Proof/Machine/Flags.lean ====
section
/-! DEFINITION. The machine has no condition code (10_state.md R23, R25): what stands here is the derived
status, the branch conditions on `acc`, and how an exact sum or difference becomes the accumulator. -/

namespace Sys2Proof.Machine

/-- The derived status (10_state.md R28). No reachable state is both halted and faulted; of such a state
the model says halted (DESIGN CHOICE, safe: log entry 6). -/
def State.status (s : State) : Status :=
  match s.halted, s.fault with
  | true, _ => .halted
  | false, some _ => .faulted
  | false, none => .running

/-- BZE's condition: `acc = 0` (43_control_transfer.md R171). -/
def accZero (s : State) : Bool := decide (s.acc = 0)

/-- BNE's condition: `acc < 0` (43_control_transfer.md R172). -/
def accNegative (s : State) : Bool := decide (s.acc < 0)

/-- BPO's condition: `acc > 0`, strictly (43_control_transfer.md R173). -/
def accPositive (s : State) : Bool := decide (0 < s.acc)

/-- BNZ's condition: `acc != 0` (43_control_transfer.md R174). -/
def accNonZero (s : State) : Bool := decide (s.acc ≠ 0)

/-- What ADD and SUB do with the exact result `r` for the effective value `v` (42_alu.md R141, R142): a
W-bit result is written; another raises ArithmeticOverflow(v), or wraps, as ARITH_OVF says. -/
def finishSum (s : State) (r v : Int) : State :=
  if isWord s.cfg.w r then { s with acc := r }
  else
    match s.cfg.arithOvf with
    | .fault => s.raise { cause := .arithmeticOverflow, info := v }
    | .wrap => { s with acc := truncW s.cfg.w r }

/-- `acc op v` on the W-bit patterns (00_scope.md R11): `trunc_W` of the bits of `u_W(acc)` and `u_W(v)`
combined by `op`. -/
def bitwiseW (w : Nat) (op : Nat → Nat → Nat) (x y : Int) : Int :=
  truncW w ((op (unsignedW w x) (unsignedW w y) : Nat) : Int)

/-- `trunc_W(x * 2^s)` (42_alu.md R147). A shift of W or more gives 0, which is what the formula gives
(`shiftLeftW_eq`), without computing a huge power. -/
def shiftLeftW (w : Nat) (x : Int) (s : Nat) : Int :=
  if w ≤ s then 0 else truncW w (x * 2 ^ s)

/-- `x div 2^s`, or `trunc_W(u_W(x) div 2^s)`, as LSR_KIND says (42_alu.md R148). Lean's `>>>` is the floor
division by a power of two (`shiftRightW_arithmetic`, `shiftRightW_logical`). -/
def shiftRightW (w : Nat) (kind : LsrKind) (x : Int) (s : Nat) : Int :=
  match kind with
  | .arithmetic => x >>> s
  | .logical => truncW w ((unsignedW w x >>> s : Nat) : Int)

/-- The shift amount of LSL and LSR: a negative one raises ShiftAmountFault (42_alu.md R147, R148), and
otherwise the accumulator becomes what `shift` gives for the amount. -/
def finishShift (s : State) (v : Int) (shift : Nat → Int) : State :=
  if v < 0 then s.raise { cause := .shiftAmountFault, info := v }
  else { s with acc := shift v.toNat }

end Sys2Proof.Machine
end

