-- ==== Sys2Proof/Machine/Alu.lean ====
section
/-! DEFINITION. ADD, SUB, AND, ORR, XOR, NOT, LSL and LSR (42_alu.md). Each writes `acc` alone (R140). -/

namespace Sys2Proof.Machine

/-- ADD: the exact sum `acc + v`, or its overflow (R141). -/
def execAdd (mode : Mode) (val : Nat) (s : State) : Host.Outcome State Fault Refusal :=
  withOperand s mode val fun v => .next (finishSum s (s.acc + v) v)

/-- SUB: the exact difference `acc - v`, or its overflow (R142). -/
def execSub (mode : Mode) (val : Nat) (s : State) : Host.Outcome State Fault Refusal :=
  withOperand s mode val fun v => .next (finishSum s (s.acc - v) v)

/-- AND: `acc <- acc and v` (R143). -/
def execAnd (mode : Mode) (val : Nat) (s : State) : Host.Outcome State Fault Refusal :=
  withOperand s mode val fun v => .next { s with acc := bitwiseW s.cfg.w (· &&& ·) s.acc v }

/-- ORR: `acc <- acc or v` (R144). -/
def execOrr (mode : Mode) (val : Nat) (s : State) : Host.Outcome State Fault Refusal :=
  withOperand s mode val fun v => .next { s with acc := bitwiseW s.cfg.w (· ||| ·) s.acc v }

/-- XOR: `acc <- acc xor v` (R145). -/
def execXor (mode : Mode) (val : Nat) (s : State) : Host.Outcome State Fault Refusal :=
  withOperand s mode val fun v => .next { s with acc := bitwiseW s.cfg.w (· ^^^ ·) s.acc v }

/-- NOT: `acc <- -acc - 1`, after the operand is resolved and its value discarded (R146). -/
def execNot (mode : Mode) (val : Nat) (s : State) : Host.Outcome State Fault Refusal :=
  withOperand s mode val fun _ => .next { s with acc := -s.acc - 1 }

/-- LSL: `acc <- trunc_W(acc * 2^v)`; a negative amount faults (R147). -/
def execLsl (mode : Mode) (val : Nat) (s : State) : Host.Outcome State Fault Refusal :=
  withOperand s mode val fun v => .next (finishShift s v (shiftLeftW s.cfg.w s.acc))

/-- LSR: `acc` shifted right by `v`, arithmetically or logically as LSR_KIND says; a negative amount faults
(R148). -/
def execLsr (mode : Mode) (val : Nat) (s : State) : Host.Outcome State Fault Refusal :=
  withOperand s mode val fun v =>
    .next (finishShift s v (shiftRightW s.cfg.w s.cfg.lsrKind s.acc))

end Sys2Proof.Machine
end

