-- ==== Sys2Proof/Machine/ControlTransfer.lean ====
section
/-! DEFINITION. BZE, BNE, BPO, BNZ and JMP (43_control_transfer.md). The target is the effective value in
every mode, absolute, and is not checked here: a bad one faults at the next fetch (R170). -/

namespace Sys2Proof.Machine

/-- `if cond: pc <- v`; a branch not taken leaves the fall-through `pc = a + 1` (R170). -/
def branchIf (s : State) (cond : Bool) (v : Int) : State :=
  if cond then { s with pc := v } else s

/-- BZE: branch if `acc = 0` (R171). -/
def execBze (mode : Mode) (val : Nat) (s : State) : Host.Outcome State Fault Refusal :=
  withOperand s mode val fun v => .next (branchIf s (accZero s) v)

/-- BNE: branch if `acc` is NEGATIVE (R172). -/
def execBne (mode : Mode) (val : Nat) (s : State) : Host.Outcome State Fault Refusal :=
  withOperand s mode val fun v => .next (branchIf s (accNegative s) v)

/-- BPO: branch if `acc > 0` (R173). -/
def execBpo (mode : Mode) (val : Nat) (s : State) : Host.Outcome State Fault Refusal :=
  withOperand s mode val fun v => .next (branchIf s (accPositive s) v)

/-- BNZ: branch if `acc != 0` (R174). -/
def execBnz (mode : Mode) (val : Nat) (s : State) : Host.Outcome State Fault Refusal :=
  withOperand s mode val fun v => .next (branchIf s (accNonZero s) v)

/-- JMP: `pc <- v` (R175). -/
def execJmp (mode : Mode) (val : Nat) (s : State) : Host.Outcome State Fault Refusal :=
  withOperand s mode val fun v => .next { s with pc := v }

end Sys2Proof.Machine
end

