-- ==== Sys2Proof/Machine/DataMovement.lean ====
section
/-! DEFINITION. HLT, LDA and STR (41_data_movement.md). Each is the execute phase of the step: `pc` already
holds the instruction's own address plus 1. -/

namespace Sys2Proof.Machine

/-- HLT: `halted <- true`, after the operand is resolved and its value discarded (R120). -/
def execHlt (mode : Mode) (val : Nat) (s : State) : Host.Outcome State Fault Refusal :=
  withOperand s mode val fun _ => .next { s with halted := true }

/-- LDA: `acc <- v` (R121). -/
def execLda (mode : Mode) (val : Nat) (s : State) : Host.Outcome State Fault Refusal :=
  withOperand s mode val fun v => .next { s with acc := v }

/-- STR: `reg[d] <- acc` for the destination `d`, or StoreAddressFault(d) and no write where `d` is outside
the register array (R122). -/
def execStr (mode : Mode) (val : Nat) (s : State) : Host.Outcome State Fault Refusal :=
  withOperand s mode val fun v =>
    match s.writeCell (storeDest s mode val v) s.acc with
    | some t => .next t
    | none => .next (s.raise { cause := .storeAddressFault, info := storeDest s mode val v })

end Sys2Proof.Machine
end

