-- ==== Sys2Proof/Machine/Dispatch.lean ====
section
/-! DEFINITION. The execute phase: one instruction rule for each operation (40_execution_cycle.md R106). -/

namespace Sys2Proof.Machine

def exec (i : Instr) (s : State) : Host.Outcome State Fault Refusal :=
  match i with
  | .hlt mode val => Sys2Proof.Machine.execHlt mode val s
  | .lda mode val => Sys2Proof.Machine.execLda mode val s
  | .str mode val => Sys2Proof.Machine.execStr mode val s
  | .add mode val => Sys2Proof.Machine.execAdd mode val s
  | .sub mode val => Sys2Proof.Machine.execSub mode val s
  | .and mode val => Sys2Proof.Machine.execAnd mode val s
  | .orr mode val => Sys2Proof.Machine.execOrr mode val s
  | .xor mode val => Sys2Proof.Machine.execXor mode val s
  | .not mode val => Sys2Proof.Machine.execNot mode val s
  | .lsl mode val => Sys2Proof.Machine.execLsl mode val s
  | .lsr mode val => Sys2Proof.Machine.execLsr mode val s
  | .bze mode val => Sys2Proof.Machine.execBze mode val s
  | .bne mode val => Sys2Proof.Machine.execBne mode val s
  | .bpo mode val => Sys2Proof.Machine.execBpo mode val s
  | .bnz mode val => Sys2Proof.Machine.execBnz mode val s
  | .jmp mode val => Sys2Proof.Machine.execJmp mode val s

end Sys2Proof.Machine
end

