-- ==== Sys2Proof/Machine/Cycle.lean ====
section
/-! DEFINITION. The fetch, decode and execute of one step of a running machine (40_execution_cycle.md R102 to
R107), and the placing of a word where the next fetch reads. -/

namespace Sys2Proof.Machine

/-- Fetch: the word at `pc`, or `none` where `pc` is outside the register array (R102). It reads the same
array that STR writes (20_memory.md R53). -/
def fetchWord (s : State) : Option Int :=
  s.readCell s.pc

/-- `pc <- a + 1`, before the instruction is interpreted (R103). -/
def State.advance (s : State) : State :=
  { s with pc := s.pc + 1 }

/-- Decode and execute the word fetched from `pc`, the increment of `pc` coming first (R103, R104, R106). -/
def runWord (s : State) (word : Int) : Host.Outcome State Fault Refusal :=
  match decode word with
  | some i => exec i s.advance
  | none => .next (s.takeFault s.pc { cause := .decodeFault, info := word })

/-- One step of a running machine (R107). -/
def cycle (s : State) : Host.Outcome State Fault Refusal :=
  match fetchWord s with
  | some word => runWord s word
  | none => .next (s.takeFault s.pc { cause := .fetchFault, info := s.pc })

/-- The cell at `pc` set to the word `w`; a state whose `pc` names no cell is left as it is, since its next
step fetches nothing. -/
def State.placeWord (s : State) (w : Int) : State :=
  match s.writeCell s.pc w with
  | some t => t
  | none => s

end Sys2Proof.Machine
end

