-- ==== Sys2Proof/Machine/Step.lean ====
section
/-! DEFINITION. The one step of the machine (40_execution_cycle.md R101, R107, R110). -/

namespace Sys2Proof.Machine

/-- One step: a running machine takes its cycle, and in the two terminal states no transition is enabled
(R110). -/
def step (s : State) : Host.Outcome State Fault Refusal :=
  match s.status with
  | .running => cycle s
  | .halted => .fault .halted
  | .faulted => .fault .faulted

/-- `s` with an instruction's bits `w` in the cell the next step fetches from. A program is loaded from
outside the machine, at construction (70_reset_and_hazards.md R220): this stands for that load (log
entry 9). -/
def State.withFetchWord (s : State) (nbits w : Nat) : State :=
  s.placeWord ((w % 2 ^ nbits : Nat) : Int)

end Sys2Proof.Machine
end

