-- ==== Sys2Proof/Machine/Assembler.lean ====
section
/-! DEFINITION. The assembler and the canonical spelling (30_encoding.md R75 to R86). They are surrounding
software, not part of the hardware block (00_scope.md R3); they are here so that a listing can be turned
into words. A text is a list of characters. -/

namespace Sys2Proof.Machine

abbrev Text := List Char

/-- A table from names to numbers, in order of declaration. -/
abbrev NameTable := List (Text × Nat)

/-- The kinds of assembler error (30_encoding.md R84), none of them a fault of the machine. -/
inductive AsmError where
  | invalidVariableDefinition
  | invalidLabelDefinition
  | invalidExpressions
  | invalidOperation
  | invalidAddressingMode
  | invalidLabel
  | invalidValue
  | valueOverflow
  deriving DecidableEq, Repr

/-- The kinds of line (R75), each with its text. -/
inductive Line where
  | blank
  | definition (text : Text)
  | counted (text : Text)
  deriving DecidableEq, Repr

/-- White space: blank, tab, carriage return and line feed. The spec does not list the characters
(DESIGN CHOICE, unsafe: log entry 12). -/
def isSpace (c : Char) : Bool :=
  c == ' ' || c == '\t' || c == '\r' || c == '\n'

/-- A decimal digit (R79, decision D25). -/
def isDecimal (c : Char) : Bool :=
  decide ('0'.toNat ≤ c.toNat ∧ c.toNat ≤ '9'.toNat)

/-- The parts of a text between the characters that satisfy `p`. -/
def splitWhere (p : Char → Bool) : Text → List Text
  | [] => [[]]
  | c :: cs =>
    match splitWhere p cs with
    | [] => [[c]]
    | t :: ts => if p c then [] :: t :: ts else (c :: t) :: ts

/-- A text without the white space around it. -/
def trim (t : Text) : Text :=
  ((t.dropWhile isSpace).reverse.dropWhile isSpace).reverse

/-- The tokens of a line: split on runs of white space (decision D25). -/
def tokens (t : Text) : List Text :=
  (splitWhere isSpace t).filter (fun u => !u.isEmpty)

/-- The word `$define`, the first token of a definition line (R76). -/
def definitionWord : Text := ['$', 'd', 'e', 'f', 'i', 'n', 'e']

/-- `$define ` at the beginning of a line makes it a definition (R75). -/
def definitionMark : Text := definitionWord ++ [' ']

/-- The kind of a trimmed line (R75). -/
def classify (t : Text) : Line :=
  if t.isEmpty then .blank
  else if definitionMark.isPrefixOf t then .definition t
  else .counted t

/-- The lines of a source text: split at LF and trimmed (R75, decision D25). -/
def sourceLines (t : Text) : List Line :=
  (splitWhere (· == '\n') t).map fun u => classify (trim u)

/-- The number of counted lines, the program length L (R75, R82). -/
def countedLines : List Line → Nat
  | [] => 0
  | .blank :: rest => countedLines rest
  | .definition _ :: rest => countedLines rest
  | .counted _ :: rest => countedLines rest + 1

/-- The texts of the definition lines, in the order of the lines (R75, R82). -/
def definitionTexts : List Line → List Text
  | [] => []
  | .blank :: rest => definitionTexts rest
  | .definition t :: rest => t :: definitionTexts rest
  | .counted _ :: rest => definitionTexts rest

/-- The text before the first `": "` and the text after it (R77). -/
def cutLabel : Text → Option (Text × Text)
  | [] => none
  | ':' :: ' ' :: rest => some ([], rest)
  | c :: rest =>
    match cutLabel rest with
    | some (name, body) => some (c :: name, body)
    | none => none

/-- A label name is non-empty and holds no white space and no `:` (decision D25). -/
def isLabelName (name : Text) : Bool :=
  !name.isEmpty && name.all (fun c => !isSpace c && c != ':')

/-- A counted line's label, if it begins with `@`, and its instruction (R77). That a bad label NAME is the
error of an invalid label definition is DEDUCED (log entry 12). -/
def splitLabel : Text → Except AsmError (Option Text × Text)
  | '@' :: rest =>
    match cutLabel rest with
    | some (name, body) =>
      if isLabelName name then .ok (some name, body) else .error .invalidLabelDefinition
    | none => .error .invalidLabelDefinition
  | t => .ok (none, t)

/-- The number a table gives a name. -/
def findName (table : NameTable) (name : Text) : Option Nat :=
  table.lookup name

/-- Pass 1 (R80): the labels, each with the index of its own line; `index` counts the counted lines, and a
duplicate is refused (decision D26). -/
def labelPass (index : Nat) (table : NameTable) : List Line → Except AsmError NameTable
  | [] => .ok table
  | .blank :: rest => labelPass index table rest
  | .definition _ :: rest => labelPass index table rest
  | .counted t :: rest =>
    match splitLabel t with
    | .error e => .error e
    | .ok (none, _) => labelPass (index + 1) table rest
    | .ok (some name, _) =>
      match findName table name with
      | some _ => .error .invalidLabelDefinition
      | none => labelPass (index + 1) (table ++ [(name, index)]) rest

/-- Pass 2 (R76, R82): the variables at `address`, `address + 1`, … in order of declaration; a duplicate is
refused (decision D26). -/
def variablePass (address : Nat) (table : NameTable) : List Line → Except AsmError NameTable
  | [] => .ok table
  | .blank :: rest => variablePass address table rest
  | .counted _ :: rest => variablePass address table rest
  | .definition t :: rest =>
    match tokens t with
    | [_, name] =>
      match findName table name with
      | some _ => .error .invalidVariableDefinition
      | none => variablePass (address + 1) (table ++ [(name, address)]) rest
    | _ => .error .invalidVariableDefinition

/-- A literal: a non-empty run of decimal digits (R79, decision D25). -/
def literalOf (t : Text) : Option Nat :=
  if !t.isEmpty && t.all isDecimal then some (Nat.ofDigitChars 10 t 0) else none

/-- The rest of an operand after its mode mark: a literal first, then a variable (R79). -/
def operandValue (vars : NameTable) (t : Text) : Except AsmError Nat :=
  match literalOf t with
  | some n => .ok n
  | none =>
    match findName vars t with
    | some n => .ok n
    | none => .error .invalidValue

/-- An operand's mode and value (R79): a label reference, or a mode mark, `RR` being tested before `R`, and a
value. -/
def operandOf (labels vars : NameTable) : Text → Except AsmError (Mode × Nat)
  | '@' :: name =>
    match findName labels name with
    | some n => .ok (.immediate, n)
    | none => .error .invalidLabel
  | 'R' :: 'R' :: t => (operandValue vars t).map fun n => (.indirect, n)
  | 'R' :: t => (operandValue vars t).map fun n => (.direct, n)
  | '#' :: t => (operandValue vars t).map fun n => (.immediate, n)
  | _ => .error .invalidAddressingMode

/-- The mnemonic of an operation (R67). -/
def mnemonic : Operation → Text
  | .hlt => ['H', 'L', 'T']
  | .lda => ['L', 'D', 'A']
  | .str => ['S', 'T', 'R']
  | .add => ['A', 'D', 'D']
  | .sub => ['S', 'U', 'B']
  | .and => ['A', 'N', 'D']
  | .orr => ['O', 'R', 'R']
  | .xor => ['X', 'O', 'R']
  | .not => ['N', 'O', 'T']
  | .lsl => ['L', 'S', 'L']
  | .lsr => ['L', 'S', 'R']
  | .bze => ['B', 'Z', 'E']
  | .bne => ['B', 'N', 'E']
  | .bpo => ['B', 'P', 'O']
  | .bnz => ['B', 'N', 'Z']
  | .jmp => ['J', 'M', 'P']

/-- The operation of a mnemonic, matched as written, in upper case (R78, decision D25). -/
def operationOf (t : Text) : Option Operation :=
  [Operation.hlt, .lda, .str, .add, .sub, .and, .orr, .xor, .not, .lsl, .lsr, .bze, .bne, .bpo, .bnz, .jmp].find?
    fun op => decide (mnemonic op = t)

/-- The word of an instruction's fields; the encoder's rejection is the error value overflow (R83). -/
def emitWord (op : Operation) (m : Mode) (val : Nat) : Except AsmError Int :=
  match encodeFields op m (val : Int) with
  | some w => .ok w
  | none => .error .valueOverflow

/-- The word of a counted line without its label (R78, R83, the order of checks of R84). -/
def emitInstruction (labels vars : NameTable) (t : Text) : Except AsmError Int :=
  match tokens t with
  | [name] => if name = mnemonic .hlt then emitWord .hlt .immediate 0 else .error .invalidExpressions
  | [name, operand] =>
    match operationOf name with
    | none => .error .invalidOperation
    | some op =>
      match operandOf labels vars operand with
      | .error e => .error e
      | .ok (m, n) => emitWord op m n
  | _ => .error .invalidExpressions

/-- Pass 3 (R83): one word for each counted line, in order. -/
def emitPass (labels vars : NameTable) : List Line → Except AsmError (List Int)
  | [] => .ok []
  | .blank :: rest => emitPass labels vars rest
  | .definition _ :: rest => emitPass labels vars rest
  | .counted t :: rest =>
    match splitLabel t with
    | .error e => .error e
    | .ok (_, body) =>
      match emitInstruction labels vars body with
      | .error e => .error e
      | .ok w => (emitPass labels vars rest).map (w :: ·)

/-- `assemble`: the three passes in order; the first error aborts the whole call (R84), and both tables are
complete before any word is emitted (R81). -/
def assemble (t : Text) : Except AsmError (List Int) :=
  match labelPass 0 [] (sourceLines t) with
  | .error e => .error e
  | .ok labels =>
    match variablePass (countedLines (sourceLines t)) [] (sourceLines t) with
    | .error e => .error e
    | .ok vars => emitPass labels vars (sourceLines t)

/-- The mark of a mode in assembly (R68). -/
def modeMark : Mode → Text
  | .immediate => ['#']
  | .direct => ['R']
  | .indirect => ['R', 'R']

/-- The canonical spelling `<mnemonic> <prefix><val>`, `val` in decimal (R86). -/
def spell (i : Instr) : Text :=
  mnemonic i.operation ++ ' ' :: (modeMark i.mode ++ Nat.toDigits 10 i.val)

end Sys2Proof.Machine
end

