-- ==== Sys2Proof/Machine/Launch.lean ====
section
/-! DEFINITION. Construction, the machine's only reset (70_reset_and_hazards.md R220 to R224). -/

namespace Sys2Proof.Machine

/-- A valid launch (R222): the program and the seed fit, every word of them is a W-bit value, and the
parameters are legal. A program word need not decode. -/
abbrev validLaunch (c : Config) (program seed : List Int) : Prop :=
  c.Valid ∧ program.length + seed.length ≤ c.memSize ∧
    (∀ x ∈ program, isWord c.w x) ∧ ∀ x ∈ seed, isWord c.w x

/-- The reset state of a launch (10_state.md R32): the program in the low cells, the seed directly after it
(R221), 0 in every other cell. -/
def resetState (c : Config) (program seed : List Int) : State where
  cfg := c
  reg := Memory.ofWords 0 (program ++ seed)
  pc := 0
  acc := 0
  halted := false
  fault := none

/-- Construct a machine (R220); an invalid launch is refused before any step (R222). -/
def launch (c : Config) (program seed : List Int) : Host.Outcome State Fault Refusal :=
  if validLaunch c program seed then .next (resetState c program seed)
  else .refused .invalidLaunch

end Sys2Proof.Machine
end

