-- ==== Sys2Proof/Machine/Run.lean ====
section
/-! DEFINITION. The rest of the host interface: run and observation (40_execution_cycle.md R101, R109;
70_reset_and_hazards.md R225, R226). -/

namespace Sys2Proof.Machine

/-- `run()` under the host's own bound of `n` steps (R101, R109): the step is repeated while the machine is
running, and a machine that is not running is left unchanged (R110). -/
def run : Nat → State → State
  | 0, s => s
  | n + 1, s =>
    match step s with
    | .next t => run n t
    | .fault _ => s
    | .refused _ => s

/-- `completed`, the public name of the halted flag (10_state.md R25). -/
def State.completed (s : State) : Bool :=
  s.halted

/-- What the host sees at the end of a run: the tuple `(reg, pc, acc, halted, fault)` (R225). -/
structure Observation where
  reg : Memory
  pc : Int
  acc : Int
  halted : Bool
  fault : Option FaultRecord
  deriving DecidableEq, Repr

/-- The observation of a run that has ended; `none` while the status is running, since such a run has no
final state (R225). -/
def observe (s : State) : Option Observation :=
  match s.status with
  | .running => none
  | .halted => some ⟨s.reg, s.pc, s.acc, s.halted, s.fault⟩
  | .faulted => some ⟨s.reg, s.pc, s.acc, s.halted, s.fault⟩

end Sys2Proof.Machine
end

