-- ==== Sys2Proof/Safety.lean ====
section
/-! DEFINITION. What a good state is: the invariant that construction establishes and every step keeps. -/

namespace Sys2Proof.Machine

/-- A fault record as the table of 60_exceptions.md R191 and the entry of R194 leave it, in a state with this
configuration and this `pc`. -/
def FaultRecord.agrees (s : State) (f : FaultRecord) : Prop :=
  s.pc = f.cause.pcAfter f.fpc ∧ isWord s.cfg.w f.fpc ∧ isWord s.cfg.w f.info ∧
  (f.cause = .fetchFault ↔ ¬ s.inArray f.fpc) ∧
  match f.cause with
  | .decodeFault => decode f.info = none
  | .fetchFault => f.info = f.fpc
  | .operandAddressFault => ¬ s.inArray f.info
  | .storeAddressFault => ¬ s.inArray f.info
  | .arithmeticOverflow => s.cfg.arithOvf = .fault
  | .shiftAmountFault => f.info < 0

/-- The invariant of the machine. -/
structure State.Inv (s : State) : Prop where
  /-- The parameters are legal (00_scope.md R5, R6). -/
  cfgValid : s.cfg.Valid
  /-- The register array is in its canonical form. -/
  regWf : Memory.wf s.reg
  /-- No cell is listed outside the register array (10_state.md R21). -/
  regInArray : ∀ c ∈ s.reg, c.1 < s.cfg.memSize
  /-- Every cell holds a W-bit value (10_state.md R21). -/
  regWords : ∀ c ∈ s.reg, isWord s.cfg.w c.2
  /-- `pc` is a W-bit value (10_state.md R24, R27). -/
  pcWord : isWord s.cfg.w s.pc
  /-- `acc` is a W-bit value (10_state.md R22). -/
  accWord : isWord s.cfg.w s.acc
  /-- Halted and faulted never hold together (10_state.md R28). -/
  notBoth : s.halted = true → s.fault = none
  /-- A recorded fault is one the spec allows there (60_exceptions.md R191, R194). -/
  faultAgrees : ∀ f, s.fault = some f → f.agrees s

end Sys2Proof.Machine
end

