-- ==== Sys2Proof/Certificates/Slice0/Obligations.lean ====
section
/-! DEFINITION. The statements for the provers. In each statement about `exec`, `s` is the state of the
execute phase: its `pc` already holds the instruction's own address plus 1. -/

namespace Sys2Proof.Machine

/-- The word at `pc` is fetched and decodes to `i`. -/
def fetches (s : State) (i : Instr) : Prop :=
  ∃ w, fetchWord s = some w ∧ decode w = some i

/-- The step of `s` is an STR whose destination index is `d`. -/
def storesTo (s : State) (d : Int) : Prop :=
  ∃ mode val v, s.status = .running ∧ fetches s (.str mode val) ∧
    resolve s.advance mode val = .ok v ∧ storeDest s.advance mode val v = d

end Sys2Proof.Machine

open Sys2Proof Sys2Proof.Machine

/-! ## The codec -/

/-- 30_encoding.md R65, both directions, for every operation, mode and value of the value field. -/
def Obligations.EncodeDecodeRoundTrip : Prop :=
  (∀ (op : Operation) (m : Mode) (v : Nat), v < 0x10000 →
    ∃ w, encode (Instr.make op m v) = some w ∧ decode w = some (Instr.make op m v)) ∧
  ∀ (w : Int) (i : Instr), decode w = some i → encode i = some w

/-- 30_encoding.md R62 and R63: what decode accepts, the three fields it returns, the reading of the opcode
bound by floor division, and the fault of every other word. -/
def Obligations.DecodeAcceptsExactlyTheKnownFields : Prop :=
  (∀ (w : Int) (i : Instr), decode w = some i ↔
    0 ≤ w / 2 ^ 18 ∧ w / 2 ^ 18 ≤ 15 ∧ w % 2 ^ 18 / 2 ^ 16 ≠ 3 ∧
    (i.operation.code : Int) = w / 2 ^ 18 ∧ (i.mode.code : Int) = w % 2 ^ 18 / 2 ^ 16 ∧
    (i.val : Int) = w % 2 ^ 16) ∧
  (∀ w : Int, (0 ≤ w / 2 ^ 18 ∧ w / 2 ^ 18 ≤ 15) ↔ (0 ≤ w ∧ w < 2 ^ 22)) ∧
  ∀ (s : State) (w : Int), s.status = .running → fetchWord s = some w →
    ¬ (0 ≤ w / 2 ^ 18 ∧ w / 2 ^ 18 ≤ 15 ∧ w % 2 ^ 18 / 2 ^ 16 ≠ 3) →
    step s = .next { s with pc := s.pc + 1, fault := some ⟨.decodeFault, s.pc, w⟩ }

/-- 30_encoding.md R70: exactly which words are illegal, how many of the 22-bit words are legal and how many
are not, and that each illegal word raises DecodeFault when fetched. -/
def Obligations.IllegalWordsRaiseDecodeFault : Prop :=
  (∀ w : Int, decode w = none ↔
    w < 0 ∨ 2 ^ 22 ≤ w ∨
    ∃ op : Nat, op < 16 ∧ (op : Int) * 2 ^ 18 + 0x30000 ≤ w ∧ w ≤ (op : Int) * 2 ^ 18 + 0x3FFFF) ∧
  ((Finset.range (2 ^ 22)).filter fun n : Nat => (decode (n : Int)).isSome).card = 3145728 ∧
  ((Finset.range (2 ^ 22)).filter fun n : Nat => (decode (n : Int)).isNone).card = 1048576 ∧
  ∀ (s : State) (w : Int), s.status = .running → fetchWord s = some w → decode w = none →
    step s = .next { s with pc := s.pc + 1, fault := some ⟨.decodeFault, s.pc, w⟩ }

/-- 30_encoding.md R64: the formula, and the rejection of every value outside `[0, 2^16)`, a negative one
among them. -/
def Obligations.EncoderRejectsUnencodableValues : Prop :=
  ∀ (op : Operation) (m : Mode) (val : Int),
    ((0 ≤ val ∧ val < 2 ^ 16) →
      encodeFields op m val = some (op.code * 2 ^ 18 + m.code * 2 ^ 16 + val)) ∧
    (¬ (0 ≤ val ∧ val < 2 ^ 16) → encodeFields op m val = none)

/-- 30_encoding.md R67: the sixteen codes with their mnemonics, no other code, and the mnemonic mapping total
and injective. -/
def Obligations.OpcodeMapIsTheListedOrder : Prop :=
  ([Operation.hlt, .lda, .str, .add, .sub, .and, .orr, .xor, .not, .lsl, .lsr, .bze, .bne, .bpo, .bnz,
      .jmp].map fun op => (op.code, mnemonic op)) =
    [(0, ['H', 'L', 'T']), (1, ['L', 'D', 'A']), (2, ['S', 'T', 'R']), (3, ['A', 'D', 'D']),
     (4, ['S', 'U', 'B']), (5, ['A', 'N', 'D']), (6, ['O', 'R', 'R']), (7, ['X', 'O', 'R']),
     (8, ['N', 'O', 'T']), (9, ['L', 'S', 'L']), (10, ['L', 'S', 'R']), (11, ['B', 'Z', 'E']),
     (12, ['B', 'N', 'E']), (13, ['B', 'P', 'O']), (14, ['B', 'N', 'Z']), (15, ['J', 'M', 'P'])] ∧
  (∀ c op, Operation.ofCode c = some op ↔ c = (op.code : Int)) ∧
  (∀ c : Int, Operation.ofCode c = none ↔ c < 0 ∨ 15 < c) ∧
  (∀ op, operationOf (mnemonic op) = some op) ∧
  ∀ op op', mnemonic op = mnemonic op' → op = op'

/-- 30_encoding.md R68: the three mode codes, code 3 illegal, the assembly marks, the two neighbour functions,
and the effective value of each mode where its cells exist. -/
def Obligations.ModeMapIsTheListedOrder : Prop :=
  Mode.ofCode 0 = some .immediate ∧ Mode.ofCode 1 = some .direct ∧ Mode.ofCode 2 = some .indirect ∧
  Mode.ofCode 3 = none ∧
  Mode.code .immediate = 0 ∧ Mode.code .direct = 1 ∧ Mode.code .indirect = 2 ∧
  modeMark .immediate = ['#'] ∧ modeMark .direct = ['R'] ∧ modeMark .indirect = ['R', 'R'] ∧
  Mode.moreIndirect .immediate = some .direct ∧ Mode.moreIndirect .direct = some .indirect ∧
  Mode.moreIndirect .indirect = none ∧ Mode.moreDirect .immediate = none ∧
  Mode.moreDirect .direct = some .immediate ∧ Mode.moreDirect .indirect = some .direct ∧
  ∀ (s : State) (val : Nat),
    resolve s .immediate val = .ok val ∧
    (val < s.cfg.memSize → resolve s .direct val = .ok (s.reg.read val)) ∧
    (val < s.cfg.memSize → s.inArray (s.reg.read val) →
      resolve s .indirect val = .ok (s.reg.read (s.reg.read val).toNat))

/-- Words written out from the spec's encodings: the decoder vectors of 95_test_vectors.md section 2, and one
word of each family from its instruction rule. -/
def Obligations.SpecWordsDecode : Prop :=
  decode 0x0 = some (.hlt .immediate 0) ∧ decode 0x2FFFF = some (.hlt .indirect 65535) ∧
  decode 0x5000D = some (.lda .direct 13) ∧ decode 0xA0003 = some (.str .indirect 3) ∧
  decode 0xC0003 = some (.add .immediate 3) ∧ decode 0x100001 = some (.sub .immediate 1) ∧
  decode 0x290009 = some (.lsr .direct 9) ∧ decode 0x2C000C = some (.bze .immediate 12) ∧
  decode 0x300004 = some (.bne .immediate 4) ∧ decode 0x3EFFFF = some (.jmp .indirect 65535) ∧
  decode 0x30000 = none ∧ decode 0x3F0000 = none ∧ decode 0x3FFFFF = none ∧ decode 0x400000 = none ∧
  decode (-1) = none ∧ decode (-262144) = none

/-- 30_encoding.md R72: the all-zero word is `HLT #0`, so control that reaches a cell beyond the program and
the seed, which a launch leaves 0, halts there with `pc` one past the cell. -/
def Obligations.ZeroWordHalts : Prop :=
  decode 0 = some (.hlt .immediate 0) ∧
  (∀ s : State, s.status = .running → fetchWord s = some 0 →
    step s = .next { s with pc := s.pc + 1, halted := true }) ∧
  ∀ (c : Config) (program seed : List Int) (s : State) (i : Nat), launch c program seed = .next s →
    program.length + seed.length ≤ i → i < c.memSize → s.readCell i = some 0

/-! ## The step -/

/-- 40_execution_cycle.md R107 (with R102 to R104): a fetch outside the array faults with nothing incremented,
a rejected word faults after the increment, and a decoded instruction is executed on the state whose `pc` is
already incremented. -/
def Obligations.StepRunsDecodedInstruction : Prop :=
  ∀ s : State, s.status = .running →
    (¬ (0 ≤ s.pc ∧ s.pc < s.cfg.memSize) →
      step s = .next { s with fault := some ⟨.fetchFault, s.pc, s.pc⟩ }) ∧
    ((0 ≤ s.pc ∧ s.pc < s.cfg.memSize) →
      (∀ i, decode (s.reg.read s.pc.toNat) = some i → step s = exec i { s with pc := s.pc + 1 }) ∧
      (decode (s.reg.read s.pc.toNat) = none →
        step s = .next { s with
          pc := s.pc + 1, fault := some ⟨.decodeFault, s.pc, s.reg.read s.pc.toNat⟩ }))

/-- 40_execution_cycle.md R110: in a halted or faulted state no step exists, and run returns at once with no
change. -/
def Obligations.TerminalStatesTakeNoStep : Prop :=
  ∀ s : State, s.halted = true ∨ s.fault ≠ none →
    (∀ t, step s ≠ .next t) ∧ ∀ n, run n s = s

/-- No instruction stops the model: every execute phase answers a next state, and so does every step of a
running machine (40_execution_cycle.md R101, R106; 60_exceptions.md R194). -/
def Obligations.RunningMachineAlwaysSteps : Prop :=
  (∀ (i : Instr) (s : State), ∃ t, exec i s = .next t) ∧
  ∀ s : State, s.status = .running → ∃ t, step s = .next t

/-- 10_state.md R28: the derived status, and that at most one of halted and faulted holds in a state that
meets the invariant. -/
def Obligations.StatusIsDerived : Prop :=
  ∀ s : State, s.Inv →
    (s.status = .running ↔ s.halted = false ∧ s.fault = none) ∧
    (s.status = .halted ↔ s.halted = true) ∧
    (s.status = .faulted ↔ s.fault ≠ none) ∧
    ¬ (s.halted = true ∧ s.fault ≠ none)

/-! ## Operands -/

/-- 40_execution_cycle.md R105: the effective value of each mode, the fault of each level, and that the
resolution's fault is taken by every one of the sixteen instructions, HLT and NOT among them. -/
def Obligations.OperandIsResolvedForEveryInstruction : Prop :=
  (∀ (s : State) (val : Nat),
    resolve s .immediate val = .ok val ∧
    (val < s.cfg.memSize → resolve s .direct val = .ok (s.reg.read val)) ∧
    (s.cfg.memSize ≤ val → resolve s .direct val = .error ⟨.operandAddressFault, val⟩) ∧
    (val < s.cfg.memSize →
      0 ≤ s.reg.read val ∧ s.reg.read val < s.cfg.memSize →
      resolve s .indirect val = .ok (s.reg.read (s.reg.read val).toNat)) ∧
    (val < s.cfg.memSize →
      ¬ (0 ≤ s.reg.read val ∧ s.reg.read val < s.cfg.memSize) →
      resolve s .indirect val = .error ⟨.operandAddressFault, s.reg.read val⟩) ∧
    (s.cfg.memSize ≤ val → resolve s .indirect val = .error ⟨.operandAddressFault, val⟩)) ∧
  ∀ (i : Instr) (s : State) (r : Raised), resolve s i.mode i.val = .error r →
    exec i s = .next { s with fault := some ⟨r.cause, s.pc - 1, r.info⟩ }

/-- 20_memory.md R41, its table: an access outside the register array is not performed, and the step raises
the fault of that access with the index. -/
def Obligations.OutOfRangeAccessFaults : Prop :=
  (∀ s : State, s.status = .running → ¬ s.inArray s.pc →
    step s = .next { s with fault := some ⟨.fetchFault, s.pc, s.pc⟩ }) ∧
  (∀ (i : Instr) (s : State), i.mode ≠ .immediate → ¬ s.inArray i.val →
    exec i s = .next { s with fault := some ⟨.operandAddressFault, s.pc - 1, i.val⟩ }) ∧
  (∀ (i : Instr) (s : State), i.mode = .indirect → s.inArray i.val → ¬ s.inArray (s.reg.read i.val) →
    exec i s = .next { s with fault := some ⟨.operandAddressFault, s.pc - 1, s.reg.read i.val⟩ }) ∧
  ∀ (s : State) (mode : Mode) (val : Nat) (v : Int), resolve s mode val = .ok v →
    ¬ s.inArray (storeDest s mode val v) →
    exec (.str mode val) s =
      .next { s with fault := some ⟨.storeAddressFault, s.pc - 1, storeDest s mode val v⟩ }

/-! ## The instructions -/

/-- 41_data_movement.md R120. -/
def Obligations.HltSetsHalted : Prop :=
  Operation.hlt.code = 0 ∧
  ∀ (s : State) (mode : Mode) (val : Nat),
    (∀ v, resolve s mode val = .ok v → exec (.hlt mode val) s = .next { s with halted := true }) ∧
    ∀ r, resolve s mode val = .error r →
      exec (.hlt mode val) s = .next { s with fault := some ⟨.operandAddressFault, s.pc - 1, r.info⟩ }

/-- 41_data_movement.md R121. -/
def Obligations.LdaLoadsEffectiveValue : Prop :=
  Operation.lda.code = 1 ∧
  ∀ (s : State) (mode : Mode) (val : Nat),
    (∀ v, resolve s mode val = .ok v → exec (.lda mode val) s = .next { s with acc := v }) ∧
    ∀ r, resolve s mode val = .error r →
      exec (.lda mode val) s = .next { s with fault := some ⟨.operandAddressFault, s.pc - 1, r.info⟩ }

/-- 41_data_movement.md R122: the destination under each setting of STR_DEST and in each mode, the write, and
the two faults. -/
def Obligations.StrWritesTheSelectedCell : Prop :=
  Operation.str.code = 2 ∧
  ∀ (s : State) (mode : Mode) (val : Nat),
    (∀ v d : Int, resolve s mode val = .ok v →
      (s.cfg.strDest = .effective → d = v) →
      (s.cfg.strDest = .literal → d = val) →
      (s.cfg.strDest = .location → mode ≠ .indirect → d = val) →
      (s.cfg.strDest = .location → mode = .indirect → d = s.reg.read val) →
      (s.inArray d →
        exec (.str mode val) s = .next { s with reg := s.reg.write d.toNat s.acc }) ∧
      (¬ s.inArray d →
        exec (.str mode val) s = .next { s with fault := some ⟨.storeAddressFault, s.pc - 1, d⟩ })) ∧
    ∀ r, resolve s mode val = .error r →
      exec (.str mode val) s = .next { s with fault := some ⟨.operandAddressFault, s.pc - 1, r.info⟩ }

/-- The frame of STR where its destination exists: exactly the destination cell changes, and it holds `acc`
(41_data_movement.md R122, 20_memory.md R42). The register array is in its canonical form, which every step
keeps (`StepKeepsInvariant`). -/
def Obligations.StrChangesExactlyItsCell : Prop :=
  ∀ (s : State) (mode : Mode) (val : Nat) (v : Int), Memory.wf s.reg → resolve s mode val = .ok v →
    s.inArray (storeDest s mode val v) →
    ∃ t, exec (.str mode val) s = .next t ∧
      (∀ a : Nat, t.reg.read a = if (a : Int) = storeDest s mode val v then s.acc else s.reg.read a) ∧
      t.cfg = s.cfg ∧ t.pc = s.pc ∧ t.acc = s.acc ∧ t.halted = s.halted ∧ t.fault = s.fault

/-- 42_alu.md R141. -/
def Obligations.AddWritesSumOrOverflows : Prop :=
  Operation.add.code = 3 ∧
  ∀ (s : State) (mode : Mode) (val : Nat),
    (∀ v, resolve s mode val = .ok v →
      ((-2 ^ (s.cfg.w - 1) ≤ s.acc + v ∧ s.acc + v < 2 ^ (s.cfg.w - 1)) →
        exec (.add mode val) s = .next { s with acc := s.acc + v }) ∧
      (¬ (-2 ^ (s.cfg.w - 1) ≤ s.acc + v ∧ s.acc + v < 2 ^ (s.cfg.w - 1)) →
        (s.cfg.arithOvf = .fault → exec (.add mode val) s =
          .next { s with fault := some ⟨.arithmeticOverflow, s.pc - 1, v⟩ }) ∧
        (s.cfg.arithOvf = .wrap → exec (.add mode val) s =
          .next { s with acc := truncW s.cfg.w (s.acc + v) }))) ∧
    ∀ r, resolve s mode val = .error r →
      exec (.add mode val) s = .next { s with fault := some ⟨.operandAddressFault, s.pc - 1, r.info⟩ }

/-- 42_alu.md R142. -/
def Obligations.SubWritesDifferenceOrOverflows : Prop :=
  Operation.sub.code = 4 ∧
  ∀ (s : State) (mode : Mode) (val : Nat),
    (∀ v, resolve s mode val = .ok v →
      ((-2 ^ (s.cfg.w - 1) ≤ s.acc - v ∧ s.acc - v < 2 ^ (s.cfg.w - 1)) →
        exec (.sub mode val) s = .next { s with acc := s.acc - v }) ∧
      (¬ (-2 ^ (s.cfg.w - 1) ≤ s.acc - v ∧ s.acc - v < 2 ^ (s.cfg.w - 1)) →
        (s.cfg.arithOvf = .fault → exec (.sub mode val) s =
          .next { s with fault := some ⟨.arithmeticOverflow, s.pc - 1, v⟩ }) ∧
        (s.cfg.arithOvf = .wrap → exec (.sub mode val) s =
          .next { s with acc := truncW s.cfg.w (s.acc - v) }))) ∧
    ∀ r, resolve s mode val = .error r →
      exec (.sub mode val) s = .next { s with fault := some ⟨.operandAddressFault, s.pc - 1, r.info⟩ }

/-- 42_alu.md R143, R144 and R145: the three bitwise instructions of one shape. -/
def Obligations.BitwiseInstructionsCombinePatterns : Prop :=
  Operation.and.code = 5 ∧ Operation.orr.code = 6 ∧ Operation.xor.code = 7 ∧
  ∀ (s : State) (mode : Mode) (val : Nat),
    (∀ v, resolve s mode val = .ok v →
      exec (.and mode val) s = .next { s with
        acc := truncW s.cfg.w ((unsignedW s.cfg.w s.acc &&& unsignedW s.cfg.w v : Nat) : Int) } ∧
      exec (.orr mode val) s = .next { s with
        acc := truncW s.cfg.w ((unsignedW s.cfg.w s.acc ||| unsignedW s.cfg.w v : Nat) : Int) } ∧
      exec (.xor mode val) s = .next { s with
        acc := truncW s.cfg.w ((unsignedW s.cfg.w s.acc ^^^ unsignedW s.cfg.w v : Nat) : Int) }) ∧
    ∀ r, resolve s mode val = .error r →
      exec (.and mode val) s =
        .next { s with fault := some ⟨.operandAddressFault, s.pc - 1, r.info⟩ } ∧
      exec (.orr mode val) s =
        .next { s with fault := some ⟨.operandAddressFault, s.pc - 1, r.info⟩ } ∧
      exec (.xor mode val) s =
        .next { s with fault := some ⟨.operandAddressFault, s.pc - 1, r.info⟩ }

/-- What `trunc_W(u_W(acc) op u_W(v))` is bit by bit: bit `k` of the new accumulator's W-bit pattern is the
operation on bit `k` of the two patterns (00_scope.md R11, "with AND acting bit by bit"). -/
def Obligations.BitwiseInstructionsActBitByBit : Prop :=
  ∀ (s : State) (mode : Mode) (val : Nat) (v : Int), 1 ≤ s.cfg.w → resolve s mode val = .ok v →
    ∃ tAnd tOrr tXor, exec (.and mode val) s = .next tAnd ∧ exec (.orr mode val) s = .next tOrr ∧
      exec (.xor mode val) s = .next tXor ∧
      ∀ k, k < s.cfg.w →
        ((unsignedW s.cfg.w tAnd.acc).testBit k =
          ((unsignedW s.cfg.w s.acc).testBit k && (unsignedW s.cfg.w v).testBit k)) ∧
        ((unsignedW s.cfg.w tOrr.acc).testBit k =
          ((unsignedW s.cfg.w s.acc).testBit k || (unsignedW s.cfg.w v).testBit k)) ∧
        ((unsignedW s.cfg.w tXor.acc).testBit k =
          ((unsignedW s.cfg.w s.acc).testBit k ^^ (unsignedW s.cfg.w v).testBit k))

/-- Corner cases of 42_alu.md R143 to R145 in a state that meets the invariant: `AND #k` leaves a value in
`[0, 65535]`, `ORR #k` and `XOR #k` leave bits W-1:16 as they are, and XOR with -1 is NOT. -/
def Obligations.BitwiseCornerCases : Prop :=
  ∀ s : State, s.Inv →
    (∀ k < 65536, ∃ tAnd tOrr tXor, exec (.and .immediate k) s = .next tAnd ∧
      exec (.orr .immediate k) s = .next tOrr ∧ exec (.xor .immediate k) s = .next tXor ∧
      (0 ≤ tAnd.acc ∧ tAnd.acc ≤ 65535) ∧
      tOrr.acc / 65536 = s.acc / 65536 ∧ tXor.acc / 65536 = s.acc / 65536) ∧
    ∀ (mode : Mode) (val : Nat), resolve s mode val = .ok (-1) →
      exec (.xor mode val) s = exec (.not mode val) s

/-- 42_alu.md R146: the complement, the unused operand's fault, and that NOT cannot leave the W-bit range. -/
def Obligations.NotComplementsAcc : Prop :=
  Operation.not.code = 8 ∧
  ∀ (s : State) (mode : Mode) (val : Nat),
    (∀ v, resolve s mode val = .ok v →
      exec (.not mode val) s = .next { s with acc := -s.acc - 1 } ∧
      (isWord s.cfg.w s.acc → isWord s.cfg.w (-s.acc - 1))) ∧
    ∀ r, resolve s mode val = .error r →
      exec (.not mode val) s = .next { s with fault := some ⟨.operandAddressFault, s.pc - 1, r.info⟩ }

/-- 42_alu.md R147: the formula for every amount, so also that an amount of W or more gives 0; the fault of a
negative amount. -/
def Obligations.LslShiftsLeft : Prop :=
  Operation.lsl.code = 9 ∧
  ∀ (s : State) (mode : Mode) (val : Nat),
    (∀ v, resolve s mode val = .ok v →
      (0 ≤ v → exec (.lsl mode val) s =
        .next { s with acc := truncW s.cfg.w (s.acc * 2 ^ v.toNat) }) ∧
      ((s.cfg.w : Int) ≤ v → exec (.lsl mode val) s = .next { s with acc := 0 }) ∧
      (v < 0 → exec (.lsl mode val) s =
        .next { s with fault := some ⟨.shiftAmountFault, s.pc - 1, v⟩ })) ∧
    ∀ r, resolve s mode val = .error r →
      exec (.lsl mode val) s = .next { s with fault := some ⟨.operandAddressFault, s.pc - 1, r.info⟩ }

/-- 42_alu.md R148: floor division under `arithmetic`, unsigned division of the pattern under `logical`, that
the two agree for `acc >= 0`, and the fault of a negative amount. -/
def Obligations.LsrShiftsRight : Prop :=
  Operation.lsr.code = 10 ∧
  ∀ (s : State) (mode : Mode) (val : Nat),
    (∀ v, resolve s mode val = .ok v →
      (0 ≤ v → s.cfg.lsrKind = .arithmetic → exec (.lsr mode val) s =
        .next { s with acc := s.acc / 2 ^ v.toNat }) ∧
      (0 ≤ v → s.cfg.lsrKind = .logical → exec (.lsr mode val) s =
        .next { s with acc := truncW s.cfg.w ((unsignedW s.cfg.w s.acc / 2 ^ v.toNat : Nat) : Int) }) ∧
      (0 ≤ v → 1 ≤ s.cfg.w → isWord s.cfg.w s.acc → 0 ≤ s.acc → exec (.lsr mode val) s =
        .next { s with acc := s.acc / 2 ^ v.toNat }) ∧
      (v < 0 → exec (.lsr mode val) s =
        .next { s with fault := some ⟨.shiftAmountFault, s.pc - 1, v⟩ })) ∧
    ∀ r, resolve s mode val = .error r →
      exec (.lsr mode val) s = .next { s with fault := some ⟨.operandAddressFault, s.pc - 1, r.info⟩ }

/-- 43_control_transfer.md R171 and R174. -/
def Obligations.BzeAndBnzTestZero : Prop :=
  Operation.bze.code = 11 ∧ Operation.bnz.code = 14 ∧
  ∀ (s : State) (mode : Mode) (val : Nat),
    (∀ v, resolve s mode val = .ok v →
      (s.acc = 0 → exec (.bze mode val) s = .next { s with pc := v }) ∧
      (s.acc ≠ 0 → exec (.bze mode val) s = .next s) ∧
      (s.acc ≠ 0 → exec (.bnz mode val) s = .next { s with pc := v }) ∧
      (s.acc = 0 → exec (.bnz mode val) s = .next s)) ∧
    ∀ r, resolve s mode val = .error r →
      exec (.bze mode val) s =
        .next { s with fault := some ⟨.operandAddressFault, s.pc - 1, r.info⟩ } ∧
      exec (.bnz mode val) s =
        .next { s with fault := some ⟨.operandAddressFault, s.pc - 1, r.info⟩ }

/-- 43_control_transfer.md R172 and R173: BNE branches on a NEGATIVE accumulator, BPO on a strictly positive
one. -/
def Obligations.BneAndBpoTestTheSign : Prop :=
  Operation.bne.code = 12 ∧ Operation.bpo.code = 13 ∧
  ∀ (s : State) (mode : Mode) (val : Nat),
    (∀ v, resolve s mode val = .ok v →
      (s.acc < 0 → exec (.bne mode val) s = .next { s with pc := v }) ∧
      (0 ≤ s.acc → exec (.bne mode val) s = .next s) ∧
      (0 < s.acc → exec (.bpo mode val) s = .next { s with pc := v }) ∧
      (s.acc ≤ 0 → exec (.bpo mode val) s = .next s)) ∧
    ∀ r, resolve s mode val = .error r →
      exec (.bne mode val) s =
        .next { s with fault := some ⟨.operandAddressFault, s.pc - 1, r.info⟩ } ∧
      exec (.bpo mode val) s =
        .next { s with fault := some ⟨.operandAddressFault, s.pc - 1, r.info⟩ }

/-- The corner case of 43_control_transfer.md R173 and R174: where the target is not the fall-through, exactly
one of BZE, BNE and BPO goes to it, and BNZ goes to it exactly when BZE does not. -/
def Obligations.ExactlyOneSignBranchIsTaken : Prop :=
  ∀ (s : State) (mode : Mode) (val : Nat) (v : Int), resolve s mode val = .ok v → v ≠ s.pc →
    ∃ tz tn tp tnz, exec (.bze mode val) s = .next tz ∧ exec (.bne mode val) s = .next tn ∧
      exec (.bpo mode val) s = .next tp ∧ exec (.bnz mode val) s = .next tnz ∧
      ((tz.pc = v ∧ tn.pc ≠ v ∧ tp.pc ≠ v) ∨ (tz.pc ≠ v ∧ tn.pc = v ∧ tp.pc ≠ v) ∨
        (tz.pc ≠ v ∧ tn.pc ≠ v ∧ tp.pc = v)) ∧
      (tnz.pc = v ↔ tz.pc ≠ v)

/-- 43_control_transfer.md R175: `pc <- v`, unchecked, and a target outside the array faults at the next
fetch with `pc` left at the target. -/
def Obligations.JmpWritesPc : Prop :=
  Operation.jmp.code = 15 ∧
  ∀ (s : State) (mode : Mode) (val : Nat),
    (∀ v, resolve s mode val = .ok v →
      exec (.jmp mode val) s = .next { s with pc := v } ∧
      (s.status = .running → ¬ s.inArray v →
        step { s with pc := v } = .next { s with pc := v, fault := some ⟨.fetchFault, v, v⟩ })) ∧
    ∀ r, resolve s mode val = .error r →
      exec (.jmp mode val) s = .next { s with fault := some ⟨.operandAddressFault, s.pc - 1, r.info⟩ }

/-- 40_execution_cycle.md R109 and the corner cases of R171 and R175: `JMP #a` at address `a`, and `BZE #a` there
with `acc = 0`, never end. -/
def Obligations.SelfJumpNeverEnds : Prop :=
  ∀ (s : State) (a : Nat), s.status = .running → s.pc = a →
    fetches s (.jmp .immediate a) ∨ (fetches s (.bze .immediate a) ∧ s.acc = 0) →
    step s = .next s ∧ ∀ n, run n s = s ∧ (run n s).status = .running

/-! ## Faults -/

/-- 60_exceptions.md R194: everything a faulting step changes. -/
def Obligations.FaultingStepWritesOnlyRecordAndPc : Prop :=
  ∀ (s t : State) (f : FaultRecord), step s = .next t → t.fault = some f →
    f.fpc = s.pc ∧
    (f.cause = .fetchFault → t = { s with fault := some f }) ∧
    (f.cause ≠ .fetchFault → t = { s with pc := s.pc + 1, fault := some f })

/-- 60_exceptions.md R193: the fault reported is the first in step order, and an execute-phase fault belongs to
its own operations. -/
def Obligations.FirstFaultInStepOrderIsReported : Prop :=
  ∀ s : State, s.status = .running → ∃ t, step s = .next t ∧
    (¬ s.inArray s.pc → ∃ f, t.fault = some f ∧ f.cause = .fetchFault) ∧
    (∀ w, fetchWord s = some w → decode w = none → ∃ f, t.fault = some f ∧ f.cause = .decodeFault) ∧
    ∀ i, fetches s i →
      (i.mode ≠ .immediate → ¬ s.inArray i.val →
        ∃ f, t.fault = some f ∧ f.cause = .operandAddressFault ∧ f.info = i.val) ∧
      (i.mode = .indirect → s.inArray i.val → ¬ s.inArray (s.reg.read i.val) →
        ∃ f, t.fault = some f ∧ f.cause = .operandAddressFault ∧ f.info = s.reg.read i.val) ∧
      (∀ v, resolve s i.mode i.val = .ok v → ∀ f, t.fault = some f →
        (f.cause = .storeAddressFault ∧ i.operation = .str) ∨
        (f.cause = .arithmeticOverflow ∧ (i.operation = .add ∨ i.operation = .sub)) ∨
        (f.cause = .shiftAmountFault ∧ (i.operation = .lsl ∨ i.operation = .lsr)))

/-- 60_exceptions.md R191, its table: for each cause its code, who raises it, under which condition, and the
recorded info. -/
def Obligations.RecordedFaultMatchesItsCause : Prop :=
  ∀ (s t : State) (f : FaultRecord), step s = .next t → t.fault = some f →
    match f.cause with
    | .decodeFault => f.cause.code = 1 ∧ fetchWord s = some f.info ∧ decode f.info = none
    | .fetchFault => f.cause.code = 2 ∧ ¬ s.inArray s.pc ∧ f.info = s.pc
    | .operandAddressFault => f.cause.code = 3 ∧ ∃ i, fetches s i ∧
        ((i.mode ≠ .immediate ∧ ¬ s.inArray i.val ∧ f.info = i.val) ∨
         (i.mode = .indirect ∧ s.inArray i.val ∧ ¬ s.inArray (s.reg.read i.val) ∧
            f.info = s.reg.read i.val))
    | .storeAddressFault => f.cause.code = 4 ∧ storesTo s f.info ∧ ¬ s.inArray f.info
    | .arithmeticOverflow => f.cause.code = 5 ∧ s.cfg.arithOvf = .fault ∧
        ∃ mode val, resolve s mode val = .ok f.info ∧
          ((fetches s (.add mode val) ∧ ¬ isWord s.cfg.w (s.acc + f.info)) ∨
           (fetches s (.sub mode val) ∧ ¬ isWord s.cfg.w (s.acc - f.info)))
    | .shiftAmountFault => f.cause.code = 6 ∧ f.info < 0 ∧
        ∃ mode val, resolve s mode val = .ok f.info ∧
          (fetches s (.lsl mode val) ∨ fetches s (.lsr mode val))

/-- 10_state.md R26: none at start, written only by a step that raises a fault, with the address that step
fetched from, and never cleared or changed afterwards. -/
def Obligations.FaultRecordIsFinal : Prop :=
  (∀ (c : Config) (program seed : List Int) (s : State), launch c program seed = .next s →
    s.fault = none) ∧
  (∀ s t : State, step s = .next t → t.fault = none ∨ ∃ f, t.fault = some f ∧ f.fpc = s.pc) ∧
  ∀ (s : State) (f : FaultRecord) (n : Nat), s.fault = some f → (run n s).fault = some f

/-! ## Whole-machine frames -/

/-- Only STR writes the register array (10_state.md section 6, the access table): after any other instruction
every cell reads as before, and after STR every cell but its destination does. -/
def Obligations.OnlyStrWritesCells : Prop :=
  ∀ (i : Instr) (s t : State), Memory.wf s.reg → exec i s = .next t →
    (i.operation ≠ .str → ∀ a, t.reg.read a = s.reg.read a) ∧
    (i.operation = .str → ∀ d : Int,
      (∀ v, resolve s i.mode i.val = .ok v → storeDest s i.mode i.val v = d) →
      ∀ a : Nat, (a : Int) ≠ d → t.reg.read a = s.reg.read a)

/-- Only LDA and the eight ALU instructions write `acc` (10_state.md section 6), and one of them that raises a
fault does not (60_exceptions.md R194). -/
def Obligations.OnlyLdaAndAluWriteAcc : Prop :=
  ∀ (i : Instr) (s t : State), exec i s = .next t → t.acc ≠ s.acc →
    i.operation ∈ [Operation.lda, .add, .sub, .and, .orr, .xor, .not, .lsl, .lsr] ∧ t.fault = s.fault

/-- 10_state.md R25: false at start, set by HLT alone, never cleared, and the same flag as `completed`. -/
def Obligations.OnlyHltSetsHaltedForGood : Prop :=
  (∀ (c : Config) (program seed : List Int) (s : State), launch c program seed = .next s →
    s.halted = false) ∧
  (∀ s t : State, step s = .next t → t.halted = true → ∃ mode val, fetches s (.hlt mode val)) ∧
  (∀ (s : State) (n : Nat), s.halted = true → (run n s).halted = true) ∧
  ∀ s : State, s.completed = s.halted

/-- 30_encoding.md R71: the next instruction is at `a + 1` unless a branch or jump is taken; every operation
that is no branch or jump goes there. -/
def Obligations.NextInstructionFollowsUnlessTransferred : Prop :=
  ∀ (s t : State) (i : Instr), s.status = .running → fetches s i → step s = .next t →
    t.pc = s.pc + 1 ∨
    (i.operation ∈ [Operation.bze, .bne, .bpo, .bnz, .jmp] ∧ resolve s i.mode i.val = .ok t.pc)

/-- The configuration is fixed for a run (10_state.md R31). That the state carries it is the model's own choice
(log entry 1), and this says that nothing changes it. -/
def Obligations.StepKeepsConfiguration : Prop :=
  (∀ s t : State, step s = .next t → t.cfg = s.cfg) ∧
  ∀ (n : Nat) (s : State), (run n s).cfg = s.cfg

/-- 10_state.md R27: in a state that meets the invariant the incremented `pc` is a W-bit value, and so is every
effective value a branch can take as its target. -/
def Obligations.PcNeverWraps : Prop :=
  ∀ s : State, s.Inv →
    (s.inArray s.pc → isWord s.cfg.w (s.pc + 1)) ∧
    ∀ (i : Instr) (v : Int), fetches s i → resolve s.advance i.mode i.val = .ok v → isWord s.cfg.w v

/-- No instruction reads `halted` or `fault` (10_state.md R29): changing both changes nothing else of the
result. -/
def Obligations.NoInstructionReadsHaltedOrFault : Prop :=
  ∀ (i : Instr) (s t : State) (h : Bool) (f : Option FaultRecord), exec i s = .next t →
    ∃ u, exec i { s with halted := h, fault := f } = .next u ∧
      u.reg = t.reg ∧ u.pc = t.pc ∧ u.acc = t.acc ∧ u.cfg = t.cfg

/-- HLT and JMP neither read nor write `acc` (10_state.md R22): on another accumulator they do the same to
everything else and keep that accumulator. LDA writes it without reading it (41_data_movement.md R121, "LDA
ignores the old `acc`"). -/
def Obligations.HltJmpAndLdaDoNotReadAcc : Prop :=
  (∀ (i : Instr) (s t : State) (x : Int), i.operation = .hlt ∨ i.operation = .jmp →
    exec i s = .next t → t.acc = s.acc ∧ exec i { s with acc := x } = .next { t with acc := x }) ∧
  ∀ (s : State) (mode : Mode) (val : Nat) (v x : Int), resolve s mode val = .ok v →
    exec (.lda mode val) { s with acc := x } = exec (.lda mode val) s

/-- 20_memory.md R48 and R53: a cell reads, for fetch and operand alike, as the value of the most recent STR to
it, or as it did at the start where there was none. -/
def Obligations.CellsHoldTheirMostRecentStore : Prop :=
  (∀ s : State, Memory.wf s.reg → ∀ d : Int, s.inArray d → storesTo s d →
    ∃ t, step s = .next t ∧ t.reg.read d.toNat = s.acc) ∧
  (∀ (s : State) (d : Nat) (n : Nat), Memory.wf s.reg → (∀ k < n, ¬ storesTo (run k s) d) →
    (run n s).reg.read d = s.reg.read d) ∧
  ∀ s : State, s.inArray s.pc → fetchWord s = some (s.reg.read s.pc.toNat)

/-! ## The invariant -/

/-- Every step keeps the invariant of the machine (`State.Inv`). -/
def Obligations.StepKeepsInvariant : Prop :=
  ∀ s t : State, s.Inv → step s = .next t → t.Inv

/-- The reset state meets the invariant. -/
def Obligations.ResetMeetsInvariant : Prop :=
  State.reset.Inv

/-- Every launch that is not refused gives a state that meets the invariant, and every state its run reaches
does too. -/
def Obligations.LaunchedRunsKeepInvariant : Prop :=
  ∀ (c : Config) (program seed : List Int) (s : State), launch c program seed = .next s →
    ∀ n, (run n s).Inv

/-! ## Launch and run -/

/-- 10_state.md R32 and 70_reset_and_hazards.md R221: the reset state of a valid launch, cell by cell. -/
def Obligations.LaunchGivesResetState : Prop :=
  ∀ (c : Config) (program seed : List Int), validLaunch c program seed →
    ∃ s, launch c program seed = .next s ∧ s.cfg = c ∧
      s.pc = 0 ∧ s.acc = 0 ∧ s.halted = false ∧ s.fault = none ∧
      (∀ k (h : k < program.length), s.readCell k = some program[k]) ∧
      (∀ k (h : k < seed.length), s.readCell ((program.length + k : Nat) : Int) = some seed[k]) ∧
      ∀ i : Nat, program.length + seed.length ≤ i → i < c.memSize → s.readCell i = some 0

/-- 70_reset_and_hazards.md R222 with 00_scope.md R5 and R6: exactly the valid launches start, and every other is
refused. R222 says nothing of W: that a launch with W below 23 is refused is the model's deduction from R5
(log entry 10). -/
def Obligations.InvalidLaunchIsRefused : Prop :=
  ∀ (c : Config) (program seed : List Int),
    ((program.length + seed.length ≤ c.memSize ∧
      (∀ x ∈ program ++ seed, -2 ^ (c.w - 1) ≤ x ∧ x < 2 ^ (c.w - 1)) ∧
      23 ≤ c.w ∧ 1 ≤ c.memSize ∧ (c.memSize : Int) ≤ 2 ^ (c.w - 1) - 1) →
        launch c program seed = .next (resetState c program seed)) ∧
    (¬ (program.length + seed.length ≤ c.memSize ∧
      (∀ x ∈ program ++ seed, -2 ^ (c.w - 1) ≤ x ∧ x < 2 ^ (c.w - 1)) ∧
      23 ≤ c.w ∧ 1 ≤ c.memSize ∧ (c.memSize : Int) ≤ 2 ^ (c.w - 1) - 1) →
        launch c program seed = .refused .invalidLaunch)

/-- The model's reset state is the launch of no program and no seed under the spec's default parameters. That
reset has these parameters is the model's choice (log entry 2). -/
def Obligations.ResetIsTheEmptyDefaultLaunch : Prop :=
  launch Config.default [] [] = .next State.reset ∧
  Config.default = ⟨64, 1024, .fault, .arithmetic, .effective⟩ ∧
  State.reset.pc = 0 ∧ State.reset.acc = 0 ∧ State.reset.halted = false ∧ State.reset.fault = none ∧
  ∀ i : Nat, i < 1024 → State.reset.readCell i = some 0

/-- 40_execution_cycle.md R101: run repeats the step while the status is running, so it can be cut anywhere, and
it stops at the first state that halts or faults. -/
def Obligations.RunRepeatsTheStepWhileRunning : Prop :=
  (∀ (m n : Nat) (s : State), run (m + n) s = run n (run m s)) ∧
  (∀ (n : Nat) (s : State), s.status = .running → ∃ t, step s = .next t ∧ run (n + 1) s = run n t) ∧
  ∀ (m n : Nat) (s : State), m ≤ n → (run m s).status ≠ .running → run n s = run m s

/-- 70_reset_and_hazards.md R225: a run that has ended is observed as the final tuple, and one that has not is
not observed. -/
def Obligations.ObservationIsTheFinalTuple : Prop :=
  ∀ s : State,
    (s.status = .running → observe s = none) ∧
    (s.status ≠ .running → observe s = some ⟨s.reg, s.pc, s.acc, s.halted, s.fault⟩)

/-! ## Arithmetic and the assembler -/

/-- `trunc_W(x)` is the unique W-bit value congruent to `x` modulo `2^W`, and `u_W(x) = x mod 2^W`
(00_scope.md R11). -/
def Obligations.TruncationIsTwosComplement : Prop :=
  ∀ (w : Nat) (x : Int), 1 ≤ w →
    isWord w (truncW w x) ∧ (2 : Int) ^ w ∣ truncW w x - x ∧
    (∀ y, isWord w y → (2 : Int) ^ w ∣ y - x → y = truncW w x) ∧
    (unsignedW w x : Int) = x % 2 ^ w

/-- Every word the assembler emits decodes, one word for each counted line (30_encoding.md R75, R83,
40_execution_cycle.md R104 and R111). -/
def Obligations.AssembledWordsAllDecode : Prop :=
  ∀ (t : Text) (ws : List Int), assemble t = .ok ws →
    ws.length = countedLines (sourceLines t) ∧ ∀ w ∈ ws, ∃ i, decode w = some i

/-- 30_encoding.md R82 and R76. `names` are the names of the definition lines in their order, and `L` the number
of counted lines. The pass answers exactly one table entry for each definition line, the k-th with the k-th
line's name and the address `L + k`, where every definition line is `$define` and a name and no name stands
twice; a definition line of any other form, and a name declared twice, are answered with
invalidVariableDefinition, by the pass and, where the label pass before it succeeds, by the assembler. -/
def Obligations.VariablesFollowTheProgram : Prop :=
  ∀ t : Text,
    (∀ names : List Text,
      (definitionTexts (sourceLines t)).map tokens = names.map (fun name => [definitionWord, name]) →
      names.Nodup →
      ∃ table, variablePass (countedLines (sourceLines t)) [] (sourceLines t) = .ok table ∧
        table.map Prod.fst = names ∧
        ∀ k (h : k < table.length), table[k].2 = countedLines (sourceLines t) + k) ∧
    (∀ table, variablePass (countedLines (sourceLines t)) [] (sourceLines t) = .ok table →
      (definitionTexts (sourceLines t)).map tokens = table.map (fun entry => [definitionWord, entry.1]) ∧
      (table.map Prod.fst).Nodup ∧
      ∀ k (h : k < table.length), table[k].2 = countedLines (sourceLines t) + k) ∧
    (((∃ name, 2 ≤ ((definitionTexts (sourceLines t)).map tokens).count [definitionWord, name]) ∨
        ∃ d ∈ definitionTexts (sourceLines t), ∀ name, tokens d ≠ [definitionWord, name]) →
      variablePass (countedLines (sourceLines t)) [] (sourceLines t) = .error .invalidVariableDefinition ∧
      ∀ labels, labelPass 0 [] (sourceLines t) = .ok labels →
        assemble t = .error .invalidVariableDefinition)

/-- 30_encoding.md R86: the canonical spelling with the rule's three examples, and that assembling the spelling
of a decoded instruction gives back the same word. -/
def Obligations.SpellingAssemblesBack : Prop :=
  (∀ i : Instr, spell i = mnemonic i.operation ++ [' '] ++ modeMark i.mode ++ Nat.toDigits 10 i.val) ∧
  spell (.lda .direct 13) = ['L', 'D', 'A', ' ', 'R', '1', '3'] ∧
  spell (.str .immediate 15) = ['S', 'T', 'R', ' ', '#', '1', '5'] ∧
  spell (.hlt .immediate 0) = ['H', 'L', 'T', ' ', '#', '0'] ∧
  ∀ (w : Int) (i : Instr), decode w = some i → assemble (spell i) = .ok [w]
end

