-- ==== Sys2Proof/Laws/Arith.lean ====
section
/-! SUPPORT. W-bit arithmetic (00_scope.md R11). -/

namespace Sys2Proof.Machine

theorem two_pow_pos (n : Nat) : (0 : Int) < 2 ^ n := by positivity

/-- Half of `2^W`. -/
theorem two_pow_half (w : Nat) (h : 1 ≤ w) : (2 : Int) ^ w = 2 * 2 ^ (w - 1) := by
  obtain ⟨k, rfl⟩ : ∃ k, w = k + 1 := ⟨w - 1, by omega⟩
  rw [Nat.add_sub_cancel, pow_succ, mul_comm]

/-- A power of two that is a bound of every 16-bit value and every legal word. -/
theorem two_pow_ge (w : Nat) (h : 23 ≤ w) : (0x400000 : Int) ≤ 2 ^ (w - 1) := by
  calc (0x400000 : Int) = 2 ^ 22 := by norm_num
    _ ≤ 2 ^ (w - 1) := pow_le_pow_right₀ (by norm_num) (by omega)

/-- `u_W(x)` is `x mod 2^W`, as an integer. -/
theorem unsignedW_cast (w : Nat) (x : Int) : (unsignedW w x : Int) = x % 2 ^ w :=
  Int.toNat_of_nonneg (Int.emod_nonneg x (two_pow_pos w).ne')

theorem unsignedW_lt (w : Nat) (x : Int) : unsignedW w x < 2 ^ w := by
  have h := Int.emod_lt_of_pos x (two_pow_pos w)
  rw [← unsignedW_cast] at h
  exact_mod_cast h

theorem truncW_isWord (w : Nat) (h : 1 ≤ w) (x : Int) : isWord w (truncW w x) := by
  have h0 := Int.emod_nonneg x (two_pow_pos w).ne'
  have h1 := Int.emod_lt_of_pos x (two_pow_pos w)
  have h2 := two_pow_half w h
  unfold truncW isWord
  split <;> constructor <;> omega

/-- `trunc_W(x)` is congruent to `x` modulo `2^W`. -/
theorem truncW_emod (w : Nat) (x : Int) : truncW w x % 2 ^ w = x % 2 ^ w := by
  unfold truncW
  split
  · exact Int.emod_emod_of_dvd x (dvd_refl _)
  · rw [Int.sub_emod_right, Int.emod_emod_of_dvd x (dvd_refl _)]

/-- A W-bit value is fixed by its residue modulo `2^W`. -/
theorem isWord_unique (w : Nat) (h : 1 ≤ w) (x y : Int) (hx : isWord w x) (hy : isWord w y)
    (hxy : x % 2 ^ w = y % 2 ^ w) : x = y := by
  have h2 := two_pow_half w h
  obtain ⟨k, hk⟩ := Int.dvd_of_emod_eq_zero (Int.emod_eq_emod_iff_emod_sub_eq_zero.mp hxy)
  have hp := two_pow_pos (w - 1)
  obtain ⟨hx1, hx2⟩ := hx
  obtain ⟨hy1, hy2⟩ := hy
  have hk0 : k = 0 := by
    rcases lt_trichotomy k 0 with hk' | hk' | hk'
    · nlinarith
    · exact hk'
    · nlinarith
  rw [hk0, mul_zero] at hk
  omega

/-- A W-bit value is its own truncation. -/
theorem truncW_of_isWord (w : Nat) (h : 1 ≤ w) (x : Int) (hx : isWord w x) : truncW w x = x :=
  isWord_unique w h _ _ (truncW_isWord w h x) hx (truncW_emod w x)

theorem unsignedW_truncW (w : Nat) (x : Int) : unsignedW w (truncW w x) = unsignedW w x := by
  unfold unsignedW
  rw [truncW_emod]

theorem unsignedW_of_lt (w n : Nat) (h : n < 2 ^ w) : unsignedW w (n : Int) = n := by
  unfold unsignedW
  have h' : (n : Int) < 2 ^ w := by exact_mod_cast h
  rw [Int.emod_eq_of_lt (by omega) h']
  rfl

/-- The shift left that LSL computes is `trunc_W(x * 2^s)` for every amount (42_alu.md R147). -/
theorem shiftLeftW_eq (w : Nat) (x : Int) (s : Nat) : shiftLeftW w x s = truncW w (x * 2 ^ s) := by
  unfold shiftLeftW
  split
  case isFalse => rfl
  case isTrue h =>
    have hd : x * 2 ^ s % 2 ^ w = 0 :=
      Int.emod_eq_zero_of_dvd (Dvd.dvd.mul_left (pow_dvd_pow 2 h) x)
    unfold truncW
    rw [hd, if_pos (two_pow_pos _)]

/-- The arithmetic shift right is the floor division by `2^s` (42_alu.md R148). -/
theorem shiftRightW_arithmetic (w : Nat) (x : Int) (s : Nat) :
    shiftRightW w .arithmetic x s = x / 2 ^ s := by
  show x >>> s = _
  rw [Int.shiftRight_eq_div_pow]
  norm_cast

/-- The logical shift right is `trunc_W(u_W(x) div 2^s)` (42_alu.md R148). -/
theorem shiftRightW_logical (w : Nat) (x : Int) (s : Nat) :
    shiftRightW w .logical x s = truncW w ((unsignedW w x / 2 ^ s : Nat) : Int) := by
  show truncW w ((unsignedW w x >>> s : Nat) : Int) = _
  rw [Nat.shiftRight_eq_div_pow]

theorem shiftRight_isWord (w : Nat) (x : Int) (s : Nat) (hx : isWord w x) : isWord w (x / 2 ^ s) := by
  have hs := two_pow_pos s
  have hs1 : (1 : Int) ≤ 2 ^ s := hs
  have hw := two_pow_pos (w - 1)
  obtain ⟨h1, h2⟩ := hx
  refine ⟨?_, ?_⟩
  · rw [Int.le_ediv_iff_mul_le hs]
    nlinarith
  · rw [Int.ediv_lt_iff_lt_mul hs]
    nlinarith

/-- A 16-bit value is a W-bit value. -/
theorem zextW_isWord (w val : Nat) (h : 23 ≤ w) (hv : val < 0x10000) : isWord w (zextW val) := by
  have := two_pow_ge w h
  unfold zextW isWord
  omega

end Sys2Proof.Machine
end

