-- ==== Sys2Proof/Laws/Decode.lean ====
section
/-! SUPPORT. The codes of the operations and the modes (30_encoding.md R67, R68). -/

namespace Sys2Proof

@[simp] theorem make_operation (op : Operation) (m : Mode) (v : Nat) :
    (Instr.make op m v).operation = op := by cases op <;> rfl
@[simp] theorem make_mode (op : Operation) (m : Mode) (v : Nat) : (Instr.make op m v).mode = m := by
  cases op <;> rfl
@[simp] theorem make_val (op : Operation) (m : Mode) (v : Nat) : (Instr.make op m v).val = v := by
  cases op <;> rfl

@[simp] theorem operation_ofCode_code (op : Operation) : Operation.ofCode (op.code : Int) = some op := by
  cases op <;> rfl
@[simp] theorem mode_ofCode_code (m : Mode) : Mode.ofCode (m.code : Int) = some m := by
  cases m <;> rfl

theorem operation_code_lt (op : Operation) : op.code < 16 := by cases op <;> decide
theorem mode_code_lt (m : Mode) : m.code < 3 := by cases m <;> decide

/-- A code is an operation's exactly when that operation has it. -/
theorem operation_ofCode_iff (c : Int) (op : Operation) :
    Operation.ofCode c = some op ↔ c = (op.code : Int) := by
  constructor
  · intro h
    unfold Operation.ofCode at h
    split at h <;> cases h <;> rfl
  · rintro rfl
    exact operation_ofCode_code op

/-- A code is a mode's exactly when that mode has it. -/
theorem mode_ofCode_iff (c : Int) (m : Mode) : Mode.ofCode c = some m ↔ c = (m.code : Int) := by
  constructor
  · intro h
    unfold Mode.ofCode at h
    split at h <;> cases h <;> rfl
  · rintro rfl
    exact mode_ofCode_code m

/-- How many numbers below `n` have the three fields of an instruction word, each field below its bound. The
numbers are variables here, so that no tactic computes a range of millions. -/
theorem card_of_fields (n a b c : Nat) (p : Nat → Prop) [DecidablePred p] (hc : c ≤ 65536) (hb : b ≤ 4)
    (h : ∀ k, (k < n ∧ p k) ↔
      ∃ x y z, (x < a ∧ y < b ∧ z < c) ∧ x * 262144 + y * 65536 + z = k) :
    ((Finset.range n).filter p).card = a * (b * c) := by
  have himage : (Finset.range n).filter p =
      (Finset.range a ×ˢ Finset.range b ×ˢ Finset.range c).image
        fun q => q.1 * 262144 + q.2.1 * 65536 + q.2.2 := by
    ext k
    simp only [Finset.mem_filter, Finset.mem_range, Finset.mem_image, Finset.mem_product, Prod.exists]
    exact h k
  rw [himage, Finset.card_image_of_injOn]
  · rw [Finset.card_product, Finset.card_product, Finset.card_range, Finset.card_range, Finset.card_range]
  · rintro ⟨p1, p2, p3⟩ hp ⟨q1, q2, q3⟩ hq hpq
    simp only [Finset.coe_product, Set.mem_prod, Finset.mem_coe, Finset.mem_range] at hp hq
    simp only at hpq
    simp only [Prod.mk.injEq]
    omega

end Sys2Proof
end

