-- ==== Sys2Proof/Laws/Assembler.lean ====
section
/-! SUPPORT. The text functions of the assembler, one lemma for each. -/

namespace Sys2Proof.Machine

/-- What the encoder accepts, and the word it gives (30_encoding.md R64). -/
theorem encodeFields_some (op : Operation) (m : Mode) (val w : Int) :
    encodeFields op m val = some w ↔
      0 ≤ val ∧ val < 65536 ∧ w = (op.code : Int) * 262144 + (m.code : Int) * 65536 + val := by
  unfold encodeFields
  by_cases h : 0 ≤ val ∧ val.toNat < 0x10000
  · rw [if_pos h, Option.some.injEq]
    exact ⟨fun h' => ⟨h.1, by omega, h'.symm⟩, fun h' => h'.2.2.symm⟩
  · rw [if_neg h]
    exact ⟨fun h' => (nomatch h'), fun h' => absurd ⟨h'.1, by omega⟩ h⟩

theorem emitWord_ok (op : Operation) (m : Mode) (val : Nat) (w : Int) :
    emitWord op m val = .ok w ↔ encodeFields op m val = some w := by
  unfold emitWord
  generalize encodeFields op m val = e
  cases e with
  | none => exact ⟨fun h => (nomatch h), fun h => (nomatch h)⟩
  | some x =>
    rw [Option.some.injEq]
    exact ⟨fun h => Except.ok.inj h, fun h => h ▸ rfl⟩

theorem splitWhere_none (p : Char → Bool) (t : Text) (h : ∀ c ∈ t, p c = false) :
    splitWhere p t = [t] := by
  induction t with
  | nil => rfl
  | cons c cs ih =>
    obtain ⟨h1, h2⟩ := List.forall_mem_cons.mp h
    rw [splitWhere, ih h2]
    simp [h1]

theorem splitWhere_one (p : Char → Bool) (a b : Text) (c : Char) (ha : ∀ x ∈ a, p x = false)
    (hc : p c = true) (hb : ∀ x ∈ b, p x = false) : splitWhere p (a ++ c :: b) = [a, b] := by
  induction a with
  | nil =>
    rw [List.nil_append, splitWhere, splitWhere_none p b hb]
    simp [hc]
  | cons x xs ih =>
    obtain ⟨h1, h2⟩ := List.forall_mem_cons.mp ha
    rw [List.cons_append, splitWhere, ih h2]
    simp [h1]

theorem mnemonic_no_space (op : Operation) (c : Char) (h : c ∈ mnemonic op) : isSpace c = false := by
  cases op <;> simp only [mnemonic, List.mem_cons, List.not_mem_nil, or_false] at h <;>
    rcases h with rfl | rfl | rfl <;> rfl

theorem modeMark_no_space (m : Mode) (c : Char) (h : c ∈ modeMark m) : isSpace c = false := by
  cases m <;> simp only [modeMark, List.mem_cons, List.not_mem_nil, or_false, or_self] at h <;>
    subst h <;> rfl

theorem isSpace_newline (c : Char) (h : isSpace c = false) : (c == '\n') = false := by
  unfold isSpace at h
  simp only [Bool.or_eq_false_iff] at h
  exact h.2

theorem digit_is_decimal (c : Char) (h : c.isDigit = true) : isSpace c = false ∧ isDecimal c = true := by
  have hr : 48 ≤ c.toNat ∧ c.toNat ≤ 57 := by
    unfold Char.isDigit at h
    simpa [UInt32.le_iff_toNat_le] using h
  have hne : ∀ d : Char, d.toNat < 48 → (c == d) = false := by
    intro d hd
    rw [beq_eq_false_iff_ne]
    rintro rfl
    omega
  unfold isSpace isDecimal
  refine ⟨?_, by simpa using hr⟩
  rw [hne ' ' (by decide), hne '\t' (by decide), hne '\r' (by decide), hne '\n' (by decide)]
  rfl

/-- A text with no white space at either end is its own trimming. -/
theorem trim_of_ends (a : Text) (h : a ≠ []) (h1 : isSpace (a.head h) = false)
    (h2 : isSpace (a.getLast h) = false) : trim a = a := by
  have e : ∀ (b : Text) (hb : b ≠ []), isSpace (b.head hb) = false → b.dropWhile isSpace = b := by
    intro b hb hs
    cases b with
    | nil => rfl
    | cons x xs =>
      rw [List.dropWhile_cons_of_neg]
      simpa using hs
  unfold trim
  rw [e a h h1, e a.reverse (by simpa using h) (by rw [List.head_reverse]; exact h2), List.reverse_reverse]

/-- The decimal digits of a number are a literal of that number. -/
theorem literalOf_digits (n : Nat) : literalOf (Nat.toDigits 10 n) = some n := by
  have hne : Nat.toDigits 10 n ≠ [] := Nat.toDigits_ne_nil
  have hd : ∀ c ∈ Nat.toDigits 10 n, isDecimal c = true := fun c hc =>
    (digit_is_decimal c (Nat.isDigit_of_mem_toDigits (by omega) (by omega) hc)).2
  unfold literalOf
  rw [if_pos, Nat.ofDigitChars_toDigits (by omega) (by omega)]
  simp only [Bool.and_eq_true, List.all_eq_true]
  exact ⟨by simp [hne], hd⟩

/-- A name that a table does not find is none of its names. -/
theorem findName_none (table : NameTable) (name : Text) (h : findName table name = none) :
    name ∉ table.map Prod.fst := by
  unfold findName at h
  rw [List.lookup_eq_none_iff] at h
  intro hn
  obtain ⟨p, hp, rfl⟩ := List.mem_map.mp hn
  simpa using h p hp

/-- A definition line of a source text begins with the mark of a definition. -/
theorem sourceLines_definition (t d : Text) (h : Line.definition d ∈ sourceLines t) :
    definitionMark <+: d := by
  obtain ⟨u, -, hu⟩ := List.mem_map.mp h
  unfold classify at hu
  split at hu
  · cases hu
  · split at hu
    · next hp => cases hu; simpa using hp
    · cases hu

theorem mem_definitionTexts (ls : List Line) (d : Text) :
    d ∈ definitionTexts ls ↔ Line.definition d ∈ ls := by
  induction ls with
  | nil => simp [definitionTexts]
  | cons l rest ih => cases l <;> simp [definitionTexts, ih]

/-- White space ends the part before it. -/
theorem splitWhere_append (p : Char → Bool) (a b : Text) (c : Char) (ha : ∀ x ∈ a, p x = false)
    (hc : p c = true) : splitWhere p (a ++ c :: b) = a :: splitWhere p b := by
  have hne : splitWhere p b ≠ [] := by
    cases b with
    | nil => simp [splitWhere]
    | cons x xs =>
      unfold splitWhere
      split
      · simp
      · split <;> simp
  induction a with
  | nil =>
    obtain ⟨u, us, hu⟩ := List.exists_cons_of_ne_nil hne
    rw [List.nil_append, splitWhere, hu]
    simp [hc]
  | cons x xs ih =>
    obtain ⟨h1, h2⟩ := List.forall_mem_cons.mp ha
    rw [List.cons_append, splitWhere, ih h2]
    simp [h1]

/-- The first token of a definition line is `$define` (30_encoding.md R76). -/
theorem tokens_definition (d : Text) (h : definitionMark <+: d) :
    ∃ rest, tokens d = definitionWord :: rest := by
  obtain ⟨b, rfl⟩ := h
  refine ⟨(splitWhere isSpace b).filter (fun u => !u.isEmpty), ?_⟩
  rw [tokens, definitionMark, List.append_assoc, List.singleton_append,
    splitWhere_append isSpace definitionWord b ' ' (by simp [definitionWord, isSpace]) rfl]
  rfl

end Sys2Proof.Machine
end

