-- ==== Sys2Proof/Laws/Memory.lean ====
section
/-! SUPPORT. The laws of the register array: a read after a write, and that every operation keeps the
canonical form. -/

namespace Sys2Proof.Machine

@[simp] theorem read_nil (i : Nat) : Memory.read [] i = Memory.unlisted := rfl

/-- An index that no entry has reads as an unlisted cell does. -/
theorem read_of_absent (m : Memory) (i : Nat) (h : ∀ c ∈ m, c.1 ≠ i) : m.read i = Memory.unlisted := by
  induction m with
  | nil => rfl
  | cons c rest ih =>
    obtain ⟨hc, hr⟩ := List.forall_mem_cons.mp h
    rw [Memory.read, if_neg hc, ih hr]

/-- An index that an entry of a canonical memory has reads as that entry. -/
theorem read_of_mem (m : Memory) (h : Memory.wf m) (c : Nat × Int) (hc : c ∈ m) : m.read c.1 = c.2 := by
  induction m with
  | nil => cases hc
  | cons d rest ih =>
    obtain ⟨hp, hz⟩ := h
    obtain ⟨hd, hr⟩ := List.pairwise_cons.mp hp
    rcases List.mem_cons.mp hc with rfl | hc
    · simp [Memory.read]
    · rw [Memory.read, if_neg (Nat.ne_of_lt (hd c hc))]
      exact ih ⟨hr, fun e he => hz e (List.mem_cons_of_mem _ he)⟩ hc

theorem read_cons (i j : Nat) (v : Int) (rest : Memory) (h : ∀ c ∈ rest, c.1 ≠ i) :
    (Memory.cons i v rest).read j = if j = i then v else rest.read j := by
  unfold Memory.cons
  by_cases hv : v = Memory.unlisted
  · rw [if_pos hv]
    by_cases hj : j = i
    · rw [if_pos hj, hj, hv, read_of_absent rest i h]
    · rw [if_neg hj]
  · rw [if_neg hv, Memory.read]
    by_cases hj : j = i
    · rw [if_pos hj, if_pos hj.symm]
    · rw [if_neg hj, if_neg (Ne.symm hj)]

theorem mem_cons_cases (i : Nat) (v : Int) (rest : Memory) (c : Nat × Int)
    (hc : c ∈ Memory.cons i v rest) : (c = (i, v) ∧ v ≠ Memory.unlisted) ∨ c ∈ rest := by
  unfold Memory.cons at hc
  by_cases hv : v = Memory.unlisted
  · rw [if_pos hv] at hc
    exact Or.inr hc
  · rw [if_neg hv] at hc
    rcases List.mem_cons.mp hc with h | h
    · exact Or.inl ⟨h, hv⟩
    · exact Or.inr h

/-- What a write can leave in the list: the written cell, or an old entry of another cell. -/
theorem mem_write_cases (m : Memory) (hm : Memory.wf m) (i : Nat) (v : Int) (c : Nat × Int)
    (hc : c ∈ m.write i v) : (c = (i, v) ∧ v ≠ Memory.unlisted) ∨ (c ∈ m ∧ c.1 ≠ i) := by
  induction m with
  | nil =>
    rcases mem_cons_cases i v [] c hc with h | h
    · exact Or.inl h
    · cases h
  | cons d rest ih =>
    obtain ⟨a, u⟩ := d
    obtain ⟨hp, hz⟩ := hm
    obtain ⟨hd, hr⟩ := List.pairwise_cons.mp hp
    rw [Memory.write] at hc
    split_ifs at hc with h1 h2
    · rcases mem_cons_cases i v _ c hc with h | h
      · exact Or.inl h
      · refine Or.inr ⟨h, ?_⟩
        rcases List.mem_cons.mp h with rfl | h'
        · exact (Nat.ne_of_lt h1).symm
        · exact (Nat.ne_of_lt (h1.trans (hd c h'))).symm
    · rcases mem_cons_cases i v _ c hc with h | h
      · exact Or.inl h
      · exact Or.inr ⟨List.mem_cons_of_mem _ h, by
          have := hd c h
          simp only at this
          omega⟩
    · rcases List.mem_cons.mp hc with rfl | h
      · exact Or.inr ⟨List.mem_cons_self, fun h => h2 h.symm⟩
      · rcases ih ⟨hr, fun e he => hz e (List.mem_cons_of_mem _ he)⟩ h with h' | ⟨h', h''⟩
        · exact Or.inl h'
        · exact Or.inr ⟨List.mem_cons_of_mem _ h', h''⟩

theorem wf_cons (i : Nat) (v : Int) (rest : Memory) (h : Memory.wf rest) (hi : ∀ c ∈ rest, i < c.1) :
    Memory.wf (Memory.cons i v rest) := by
  unfold Memory.cons
  by_cases hv : v = Memory.unlisted
  · rw [if_pos hv]
    exact h
  · rw [if_neg hv]
    exact ⟨List.pairwise_cons.mpr ⟨hi, h.1⟩, List.forall_mem_cons.mpr ⟨hv, h.2⟩⟩

/-- A write keeps the canonical form. -/
theorem wf_write (m : Memory) (hm : Memory.wf m) (i : Nat) (v : Int) : Memory.wf (m.write i v) := by
  induction m with
  | nil => exact wf_cons i v [] hm (by simp)
  | cons d rest ih =>
    obtain ⟨a, u⟩ := d
    obtain ⟨hp, hz⟩ := hm
    obtain ⟨hd, hr⟩ := List.pairwise_cons.mp hp
    have hrest : Memory.wf rest := ⟨hr, fun e he => hz e (List.mem_cons_of_mem _ he)⟩
    rw [Memory.write]
    split_ifs with h1 h2
    · refine wf_cons i v _ ⟨hp, hz⟩ (List.forall_mem_cons.mpr ⟨h1, fun c hc => h1.trans (hd c hc)⟩)
    · subst h2
      exact wf_cons i v rest hrest hd
    · refine ⟨List.pairwise_cons.mpr ⟨fun c hc => ?_, (ih hrest).1⟩,
        List.forall_mem_cons.mpr ⟨hz _ List.mem_cons_self, (ih hrest).2⟩⟩
      rcases mem_write_cases rest hrest i v c hc with ⟨rfl, -⟩ | ⟨hc', -⟩
      · show a < i
        omega
      · exact hd c hc'

/-- A read after a write: the written cell reads as the value written, and every other cell as before. -/
theorem read_write (m : Memory) (hm : Memory.wf m) (i j : Nat) (v : Int) :
    (m.write i v).read j = if j = i then v else m.read j := by
  induction m with
  | nil => exact read_cons i j v [] (by simp)
  | cons d rest ih =>
    obtain ⟨a, u⟩ := d
    obtain ⟨hp, hz⟩ := hm
    obtain ⟨hd, hr⟩ := List.pairwise_cons.mp hp
    have hrest : Memory.wf rest := ⟨hr, fun e he => hz e (List.mem_cons_of_mem _ he)⟩
    rw [Memory.write]
    by_cases h1 : i < a
    · rw [if_pos h1, read_cons _ _ _ _ (List.forall_mem_cons.mpr ⟨(Nat.ne_of_lt h1).symm, fun c hc =>
        (Nat.ne_of_lt (h1.trans (hd c hc))).symm⟩)]
    rw [if_neg h1]
    by_cases h2 : i = a
    · subst h2
      rw [if_pos rfl, read_cons _ _ _ _ fun c hc => (Nat.ne_of_lt (hd c hc)).symm, Memory.read]
      by_cases h3 : j = i
      · rw [if_pos h3, if_pos h3]
      · rw [if_neg h3, if_neg h3, if_neg (Ne.symm h3)]
    · rw [if_neg h2, Memory.read, Memory.read, ih hrest]
      by_cases h3 : j = i
      · subst h3
        rw [if_pos rfl, if_pos rfl, if_neg fun h => h2 h.symm]
      · rw [if_neg h3, if_neg h3]

theorem mem_ofWords (i : Nat) (ws : List Int) (c : Nat × Int) (hc : c ∈ Memory.ofWords i ws) :
    i ≤ c.1 ∧ c.1 < i + ws.length ∧ c.2 ∈ ws := by
  induction ws generalizing i with
  | nil => cases hc
  | cons v vs ih =>
    rw [Memory.ofWords] at hc
    rcases mem_cons_cases i v _ c hc with ⟨rfl, -⟩ | h
    · simp
    · obtain ⟨h1, h2, h3⟩ := ih (i + 1) h
      simp only [List.length_cons, List.mem_cons]
      exact ⟨by omega, by omega, Or.inr h3⟩

/-- The image of a launch is in canonical form. -/
theorem wf_ofWords (i : Nat) (ws : List Int) : Memory.wf (Memory.ofWords i ws) := by
  induction ws generalizing i with
  | nil => exact ⟨List.Pairwise.nil, by simp [Memory.ofWords]⟩
  | cons v vs ih =>
    exact wf_cons i v _ (ih (i + 1)) fun c hc => (mem_ofWords (i + 1) vs c hc).1

/-- The image of a launch holds the words in order from `i` on, and nothing beyond them. -/
theorem read_ofWords (i k : Nat) (ws : List Int) :
    (Memory.ofWords i ws).read (i + k) = (ws[k]?).getD Memory.unlisted := by
  induction ws generalizing i k with
  | nil => simp [Memory.ofWords]
  | cons v vs ih =>
    rw [Memory.ofWords, read_cons _ _ _ _ fun c hc =>
      (Nat.ne_of_lt (mem_ofWords (i + 1) vs c hc).1).symm]
    cases k with
    | zero => simp
    | succ k =>
      have h := ih (i + 1) k
      rw [if_neg (by omega), show i + (k + 1) = i + 1 + k by omega, h, List.getElem?_cons_succ]

/-- A cell of a memory whose entries all satisfy `P` satisfies it, when an unlisted cell does. -/
theorem read_satisfies (P : Int → Prop) (m : Memory) (i : Nat) (h0 : P Memory.unlisted)
    (h : ∀ c ∈ m, P c.2) : P (m.read i) := by
  induction m with
  | nil => exact h0
  | cons c rest ih =>
    obtain ⟨hc, hr⟩ := List.forall_mem_cons.mp h
    rw [Memory.read]
    split
    · exact hc
    · exact ih hr

end Sys2Proof.Machine
end

