-- ==== Sys2Proof/Laws/State.lean ====
section
/-! SUPPORT. One lemma for each field of the state and each named update of it. -/

namespace Sys2Proof.Machine

@[simp] theorem takeFault_cfg (s : State) (a : Int) (r : Raised) : (s.takeFault a r).cfg = s.cfg := rfl
@[simp] theorem takeFault_reg (s : State) (a : Int) (r : Raised) : (s.takeFault a r).reg = s.reg := rfl
@[simp] theorem takeFault_pc (s : State) (a : Int) (r : Raised) :
    (s.takeFault a r).pc = r.cause.pcAfter a := rfl
@[simp] theorem takeFault_acc (s : State) (a : Int) (r : Raised) : (s.takeFault a r).acc = s.acc := rfl
@[simp] theorem takeFault_halted (s : State) (a : Int) (r : Raised) :
    (s.takeFault a r).halted = s.halted := rfl
@[simp] theorem takeFault_fault (s : State) (a : Int) (r : Raised) :
    (s.takeFault a r).fault = some ⟨r.cause, a, r.info⟩ := rfl

@[simp] theorem raise_cfg (s : State) (r : Raised) : (s.raise r).cfg = s.cfg := rfl
@[simp] theorem raise_reg (s : State) (r : Raised) : (s.raise r).reg = s.reg := rfl
@[simp] theorem raise_acc (s : State) (r : Raised) : (s.raise r).acc = s.acc := rfl
@[simp] theorem raise_halted (s : State) (r : Raised) : (s.raise r).halted = s.halted := rfl
@[simp] theorem raise_fault (s : State) (r : Raised) :
    (s.raise r).fault = some ⟨r.cause, s.pc - 1, r.info⟩ := rfl

/-- A fault of the execute phase leaves the incremented `pc` as it is (60_exceptions.md R194). -/
theorem raise_pc (s : State) (r : Raised) (h : r.cause ≠ .fetchFault) : (s.raise r).pc = s.pc := by
  obtain ⟨c, x⟩ := r
  cases c
  case fetchFault => exact absurd rfl h
  all_goals exact Int.sub_add_cancel s.pc 1

/-- Everything a fault of the execute phase changes: the record alone. -/
theorem raise_eq (s : State) (r : Raised) (h : r.cause ≠ .fetchFault) :
    s.raise r = { s with fault := some ⟨r.cause, s.pc - 1, r.info⟩ } := by
  have hp := raise_pc s r h
  unfold State.raise State.takeFault at *
  simp only [State.mk.injEq, true_and]
  exact ⟨hp, rfl⟩

@[simp] theorem advance_cfg (s : State) : s.advance.cfg = s.cfg := rfl
@[simp] theorem advance_reg (s : State) : s.advance.reg = s.reg := rfl
@[simp] theorem advance_pc (s : State) : s.advance.pc = s.pc + 1 := rfl
@[simp] theorem advance_acc (s : State) : s.advance.acc = s.acc := rfl
@[simp] theorem advance_halted (s : State) : s.advance.halted = s.halted := rfl
@[simp] theorem advance_fault (s : State) : s.advance.fault = s.fault := rfl

@[simp] theorem resetState_cfg (c : Config) (p q : List Int) : (resetState c p q).cfg = c := rfl
@[simp] theorem resetState_reg (c : Config) (p q : List Int) :
    (resetState c p q).reg = Memory.ofWords 0 (p ++ q) := rfl
@[simp] theorem resetState_pc (c : Config) (p q : List Int) : (resetState c p q).pc = 0 := rfl
@[simp] theorem resetState_acc (c : Config) (p q : List Int) : (resetState c p q).acc = 0 := rfl
@[simp] theorem resetState_halted (c : Config) (p q : List Int) :
    (resetState c p q).halted = false := rfl
@[simp] theorem resetState_fault (c : Config) (p q : List Int) : (resetState c p q).fault = none := rfl

/-- The status is running exactly when neither terminal flag is set (10_state.md R28). -/
theorem status_running (s : State) : s.status = .running ↔ s.halted = false ∧ s.fault = none := by
  unfold State.status
  cases s.halted <;> cases s.fault <;> simp

/-- A step of a running machine is its cycle. -/
theorem step_running (s : State) (h : s.status = .running) : step s = cycle s := by
  simp only [step, h]

/-- A machine that is not running has no next state (40_execution_cycle.md R110). -/
theorem step_terminal (s t : State) (h : s.status ≠ .running) : step s ≠ .next t := by
  unfold step
  cases hs : s.status
  case running => exact absurd hs h
  all_goals simp

end Sys2Proof.Machine
end

