-- ==== Sys2Proof/Laws/Ops.lean ====
section
/-! SUPPORT. One lemma for each shared operation that says once everything it can do. -/

namespace Sys2Proof.Machine

theorem readCell_some (s : State) (i v : Int) :
    s.readCell i = some v ↔ s.inArray i ∧ s.reg.read i.toNat = v := by
  unfold State.readCell
  by_cases h : s.inArray i
  · rw [if_pos h, Option.some.injEq]
    exact ⟨fun h' => ⟨h, h'⟩, fun h' => h'.2⟩
  · rw [if_neg h]
    exact ⟨fun h' => (nomatch h'), fun h' => absurd h'.1 h⟩

theorem readCell_none (s : State) (i : Int) : s.readCell i = none ↔ ¬ s.inArray i := by
  unfold State.readCell
  split <;> rename_i h <;> simp [h]

theorem writeCell_some (s t : State) (i v : Int) :
    s.writeCell i v = some t ↔ s.inArray i ∧ t = { s with reg := s.reg.write i.toNat v } := by
  unfold State.writeCell
  by_cases h : s.inArray i
  · rw [if_pos h, Option.some.injEq]
    exact ⟨fun h' => ⟨h, h'.symm⟩, fun h' => h'.2.symm⟩
  · rw [if_neg h]
    exact ⟨fun h' => (nomatch h'), fun h' => absurd h'.1 h⟩

theorem writeCell_none (s : State) (i v : Int) : s.writeCell i v = none ↔ ¬ s.inArray i := by
  unfold State.writeCell
  split <;> rename_i h <;> simp [h]

theorem readOperand_ok (s : State) (i v : Int) :
    readOperand s i = .ok v ↔ s.inArray i ∧ s.reg.read i.toNat = v := by
  unfold readOperand
  split
  case h_1 u h =>
    have := (readCell_some s i u).mp h
    rw [Except.ok.injEq, this.2]
    exact ⟨fun h' => ⟨this.1, h'⟩, fun h' => h'.2⟩
  case h_2 h =>
    have := (readCell_none s i).mp h
    simp [this]

theorem readOperand_error (s : State) (i : Int) (r : Raised) :
    readOperand s i = .error r ↔ ¬ s.inArray i ∧ r = ⟨.operandAddressFault, i⟩ := by
  unfold readOperand
  split
  case h_1 u h =>
    have := (readCell_some s i u).mp h
    simp [this.1]
  case h_2 h =>
    have := (readCell_none s i).mp h
    simp [this, eq_comm]

/-- Everything operand resolution can answer, case by case (40_execution_cycle.md R105). -/
theorem resolve_ok (s : State) (mode : Mode) (val : Nat) (v : Int) :
    resolve s mode val = .ok v ↔
      match mode with
      | .immediate => v = val
      | .direct => s.inArray val ∧ s.reg.read val = v
      | .indirect => s.inArray val ∧ s.inArray (s.reg.read val) ∧
          s.reg.read (s.reg.read val).toNat = v := by
  unfold resolve
  cases mode
  case immediate => simp [zextW, eq_comm]
  case direct => simpa [zextW] using readOperand_ok s (zextW val) v
  case indirect =>
    simp only
    split
    case h_1 p h =>
      have hp := (readOperand_ok s (zextW val) p).mp h
      have hv : s.reg.read val = p := by simpa [zextW] using hp.2
      rw [readOperand_ok, hv]
      exact ⟨fun h' => ⟨hp.1, h'⟩, fun h' => h'.2⟩
    case h_2 r h =>
      have hp := (readOperand_error s (zextW val) r).mp h
      simp only [reduceCtorEq, false_iff]
      exact fun h' => hp.1 h'.1

/-- Every fault operand resolution can raise (40_execution_cycle.md R105). -/
theorem resolve_error (s : State) (mode : Mode) (val : Nat) (r : Raised) :
    resolve s mode val = .error r ↔
      match mode with
      | .immediate => False
      | .direct => ¬ s.inArray val ∧ r = ⟨.operandAddressFault, val⟩
      | .indirect => (¬ s.inArray val ∧ r = ⟨.operandAddressFault, val⟩) ∨
          (s.inArray val ∧ ¬ s.inArray (s.reg.read val) ∧
            r = ⟨.operandAddressFault, s.reg.read val⟩) := by
  unfold resolve
  cases mode
  case immediate => simp
  case direct => exact readOperand_error s (zextW val) r
  case indirect =>
    simp only
    split
    case h_1 p h =>
      have hp := (readOperand_ok s (zextW val) p).mp h
      have hv : s.reg.read val = p := by simpa [zextW] using hp.2
      rw [readOperand_error, hv]
      constructor
      · exact fun h' => Or.inr ⟨hp.1, h'⟩
      · rintro (h' | h')
        · exact absurd hp.1 h'.1
        · exact h'.2
    case h_2 q h =>
      have hp := (readOperand_error s (zextW val) q).mp h
      rw [Except.error.injEq, hp.2]
      constructor
      · exact fun h' => Or.inl ⟨hp.1, h'.symm⟩
      · rintro (h' | h')
        · exact h'.2.symm
        · exact absurd h'.1 hp.1

/-- A fault of operand resolution is OperandAddressFault, with an index outside the array. -/
theorem resolve_error_cause (s : State) (mode : Mode) (val : Nat) (r : Raised)
    (h : resolve s mode val = .error r) : r.cause = .operandAddressFault ∧ ¬ s.inArray r.info := by
  rw [resolve_error] at h
  cases mode
  case immediate => exact h.elim
  case direct => obtain ⟨h1, rfl⟩ := h; exact ⟨rfl, h1⟩
  case indirect =>
    rcases h with ⟨h1, rfl⟩ | ⟨-, h1, rfl⟩
    · exact ⟨rfl, h1⟩
    · exact ⟨rfl, h1⟩

/-- Operand resolution reads only the configuration and the register array. -/
theorem resolve_congr (s t : State) (hc : s.cfg = t.cfg) (hr : s.reg = t.reg) (mode : Mode) (val : Nat) :
    resolve s mode val = resolve t mode val := by
  simp only [resolve, readOperand, State.readCell, State.inArray, hc, hr]

theorem withOperand_ok (s : State) (mode : Mode) (val : Nat) (v : Int)
    (effect : Int → Host.Outcome State Fault Refusal) (h : resolve s mode val = .ok v) :
    withOperand s mode val effect = effect v := by
  simp only [withOperand, h]

theorem withOperand_error (s : State) (mode : Mode) (val : Nat) (r : Raised)
    (effect : Int → Host.Outcome State Fault Refusal) (h : resolve s mode val = .error r) :
    withOperand s mode val effect = .next (s.raise r) := by
  simp only [withOperand, h]

/-- Everything an instruction can do before its own effect: the operand is unreadable and that fault is
taken, or the effect runs on the effective value. -/
theorem withOperand_next (s t : State) (mode : Mode) (val : Nat)
    (effect : Int → Host.Outcome State Fault Refusal) (h : withOperand s mode val effect = .next t) :
    (∃ r, resolve s mode val = .error r ∧ t = s.raise r) ∨
    ∃ v, resolve s mode val = .ok v ∧ effect v = .next t := by
  cases hr : resolve s mode val with
  | error r =>
    rw [withOperand_error s mode val r effect hr] at h
    exact Or.inl ⟨r, rfl, (Host.Outcome.next.inj h).symm⟩
  | ok v =>
    rw [withOperand_ok s mode val v effect hr] at h
    exact Or.inr ⟨v, rfl, h⟩

/-- Everything ADD and SUB can do with an exact result. -/
theorem finishSum_cases (s : State) (r v : Int) :
    (isWord s.cfg.w r ∧ finishSum s r v = { s with acc := r }) ∨
    (¬ isWord s.cfg.w r ∧ s.cfg.arithOvf = .fault ∧
      finishSum s r v = s.raise ⟨.arithmeticOverflow, v⟩) ∨
    (¬ isWord s.cfg.w r ∧ s.cfg.arithOvf = .wrap ∧
      finishSum s r v = { s with acc := truncW s.cfg.w r }) := by
  unfold finishSum
  by_cases h : isWord s.cfg.w r
  · exact Or.inl ⟨h, if_pos h⟩
  · rw [if_neg h]
    cases ho : s.cfg.arithOvf
    · exact Or.inr (Or.inl ⟨h, rfl, rfl⟩)
    · exact Or.inr (Or.inr ⟨h, rfl, rfl⟩)

/-- Everything LSL and LSR can do with an amount. -/
theorem finishShift_cases (s : State) (v : Int) (shift : Nat → Int) :
    (v < 0 ∧ finishShift s v shift = s.raise ⟨.shiftAmountFault, v⟩) ∨
    (0 ≤ v ∧ finishShift s v shift = { s with acc := shift v.toNat }) := by
  unfold finishShift
  by_cases h : v < 0
  · exact Or.inl ⟨h, if_pos h⟩
  · exact Or.inr ⟨by omega, if_neg h⟩

theorem branchIf_taken (s : State) (v : Int) : branchIf s true v = { s with pc := v } := rfl
theorem branchIf_not_taken (s : State) (v : Int) : branchIf s false v = s := rfl

/-- Everything a cycle can do: the fetch fails, decode rejects the word, or the decoded instruction
executes (40_execution_cycle.md R107). -/
theorem cycle_cases (s : State) :
    (¬ s.inArray s.pc ∧ cycle s = .next (s.takeFault s.pc ⟨.fetchFault, s.pc⟩)) ∨
    (∃ w, fetchWord s = some w ∧ decode w = none ∧
      cycle s = .next (s.takeFault s.pc ⟨.decodeFault, w⟩)) ∨
    ∃ w i, fetchWord s = some w ∧ decode w = some i ∧ cycle s = exec i s.advance := by
  unfold cycle
  cases hf : fetchWord s with
  | none => exact Or.inl ⟨(readCell_none s s.pc).mp hf, rfl⟩
  | some w =>
    cases hd : decode w with
    | none => exact Or.inr (Or.inl ⟨w, rfl, hd, by simp only [runWord, hd]⟩)
    | some i => exact Or.inr (Or.inr ⟨w, i, rfl, hd, by simp only [runWord, hd]⟩)

end Sys2Proof.Machine
end

