-- ==== Sys2Proof/Laws/Exec.lean ====
section
/-! SUPPORT. What the execute phase of an instruction can do, said once for all sixteen. -/

namespace Sys2Proof.Machine

/-- The changes an execute phase can make to `s` when the operand resolves to `v`. -/
inductive Effect (i : Instr) (s : State) (v : Int) : State → Prop where
  | halts (h : i.operation = .hlt) : Effect i s v { s with halted := true }
  | loads (h : i.operation = .lda) : Effect i s v { s with acc := v }
  | stores (h : i.operation = .str) (hd : s.inArray (storeDest s i.mode i.val v)) :
      Effect i s v { s with reg := s.reg.write (storeDest s i.mode i.val v).toNat s.acc }
  | storeFaults (h : i.operation = .str) (hd : ¬ s.inArray (storeDest s i.mode i.val v)) :
      Effect i s v (s.raise ⟨.storeAddressFault, storeDest s i.mode i.val v⟩)
  | sums (r : Int) (h : (i.operation = .add ∧ r = s.acc + v) ∨ (i.operation = .sub ∧ r = s.acc - v)) :
      Effect i s v (finishSum s r v)
  | combines (op : Nat → Nat → Nat) (h : i.operation = .and ∨ i.operation = .orr ∨ i.operation = .xor) :
      Effect i s v { s with acc := bitwiseW s.cfg.w op s.acc v }
  | complements (h : i.operation = .not) : Effect i s v { s with acc := -s.acc - 1 }
  | shifts (shift : Nat → Int)
      (h : (i.operation = .lsl ∧ shift = shiftLeftW s.cfg.w s.acc) ∨
        (i.operation = .lsr ∧ shift = shiftRightW s.cfg.w s.cfg.lsrKind s.acc)) :
      Effect i s v (finishShift s v shift)
  | branches (cond : Bool)
      (h : i.operation = .bze ∨ i.operation = .bne ∨ i.operation = .bpo ∨ i.operation = .bnz) :
      Effect i s v (branchIf s cond v)
  | jumps (h : i.operation = .jmp) : Effect i s v { s with pc := v }

theorem cases_of_operand (i : Instr) (s t : State) (effect : Int → Host.Outcome State Fault Refusal)
    (h : withOperand s i.mode i.val effect = .next t)
    (he : ∀ v u, effect v = .next u → Effect i s v u) :
    (∃ r, resolve s i.mode i.val = .error r ∧ t = s.raise r) ∨
    ∃ v, resolve s i.mode i.val = .ok v ∧ Effect i s v t := by
  rcases withOperand_next s t i.mode i.val effect h with h' | ⟨v, hv, hn⟩
  · exact Or.inl h'
  · exact Or.inr ⟨v, hv, he v t hn⟩

/-- Everything `exec` can do: the operand is unreadable and that fault is taken, or the operand resolves and
the effect is one of `Effect`. -/
theorem exec_cases (i : Instr) (s t : State) (h : exec i s = .next t) :
    (∃ r, resolve s i.mode i.val = .error r ∧ t = s.raise r) ∨
    ∃ v, resolve s i.mode i.val = .ok v ∧ Effect i s v t := by
  cases i
  case str m n =>
    refine cases_of_operand (.str m n) s t _ h fun v u e => ?_
    cases hw : s.writeCell (storeDest s m n v) s.acc with
    | some x =>
      rw [hw] at e
      obtain ⟨hd, rfl⟩ := (writeCell_some _ _ _ _).mp hw
      exact Host.Outcome.next.inj e ▸ .stores rfl hd
    | none =>
      rw [hw] at e
      exact Host.Outcome.next.inj e ▸ .storeFaults rfl ((writeCell_none _ _ _).mp hw)
  case hlt m n =>
    exact cases_of_operand (.hlt m n) s t _ h fun v u e => Host.Outcome.next.inj e ▸ .halts rfl
  case lda m n =>
    exact cases_of_operand (.lda m n) s t _ h fun v u e => Host.Outcome.next.inj e ▸ .loads rfl
  case add m n =>
    exact cases_of_operand (.add m n) s t _ h fun v u e => Host.Outcome.next.inj e ▸ .sums _ (Or.inl ⟨rfl, rfl⟩)
  case sub m n =>
    exact cases_of_operand (.sub m n) s t _ h fun v u e => Host.Outcome.next.inj e ▸ .sums _ (Or.inr ⟨rfl, rfl⟩)
  case and m n =>
    exact cases_of_operand (.and m n) s t _ h fun v u e => Host.Outcome.next.inj e ▸ .combines _ (Or.inl rfl)
  case orr m n =>
    exact cases_of_operand (.orr m n) s t _ h fun v u e => Host.Outcome.next.inj e ▸ .combines _ (Or.inr (Or.inl rfl))
  case xor m n =>
    exact cases_of_operand (.xor m n) s t _ h fun v u e => Host.Outcome.next.inj e ▸ .combines _ (Or.inr (Or.inr rfl))
  case not m n =>
    exact cases_of_operand (.not m n) s t _ h fun v u e => Host.Outcome.next.inj e ▸ .complements rfl
  case lsl m n =>
    exact cases_of_operand (.lsl m n) s t _ h fun v u e => Host.Outcome.next.inj e ▸ .shifts _ (Or.inl ⟨rfl, rfl⟩)
  case lsr m n =>
    exact cases_of_operand (.lsr m n) s t _ h fun v u e => Host.Outcome.next.inj e ▸ .shifts _ (Or.inr ⟨rfl, rfl⟩)
  case bze m n =>
    exact cases_of_operand (.bze m n) s t _ h fun v u e => Host.Outcome.next.inj e ▸ .branches _ (Or.inl rfl)
  case bne m n =>
    exact cases_of_operand (.bne m n) s t _ h fun v u e => Host.Outcome.next.inj e ▸ .branches _ (Or.inr (Or.inl rfl))
  case bpo m n =>
    exact cases_of_operand (.bpo m n) s t _ h fun v u e => Host.Outcome.next.inj e ▸ .branches _ (Or.inr (Or.inr (Or.inl rfl)))
  case bnz m n =>
    exact cases_of_operand (.bnz m n) s t _ h fun v u e => Host.Outcome.next.inj e ▸ .branches _ (Or.inr (Or.inr (Or.inr rfl)))
  case jmp m n =>
    exact cases_of_operand (.jmp m n) s t _ h fun v u e => Host.Outcome.next.inj e ▸ .jumps rfl

/-- Everything a step can do: only a running machine steps, and its step is a fault of the fetch, a fault of
the decoding, or the execute phase of the decoded instruction on the advanced state. -/
theorem step_cases (s t : State) (h : step s = .next t) :
    s.status = .running ∧
    ((¬ s.inArray s.pc ∧ t = s.takeFault s.pc ⟨.fetchFault, s.pc⟩) ∨
     (∃ w, fetchWord s = some w ∧ decode w = none ∧ t = s.takeFault s.pc ⟨.decodeFault, w⟩) ∨
     ∃ w i, fetchWord s = some w ∧ decode w = some i ∧ exec i s.advance = .next t) := by
  have hr : s.status = .running := by
    by_contra hn
    exact step_terminal s t hn h
  rw [step_running s hr] at h
  refine ⟨hr, ?_⟩
  rcases cycle_cases s with ⟨h1, h2⟩ | ⟨w, h1, h2, h3⟩ | ⟨w, i, h1, h2, h3⟩
  · rw [h2] at h
    exact Or.inl ⟨h1, (Host.Outcome.next.inj h).symm⟩
  · rw [h3] at h
    exact Or.inr (Or.inl ⟨w, h1, h2, (Host.Outcome.next.inj h).symm⟩)
  · rw [h3] at h
    exact Or.inr (Or.inr ⟨w, i, h1, h2, h⟩)

end Sys2Proof.Machine
end

