-- ==== Sys2Proof/Laws/PerInstr.lean ====
section
/-! SUPPORT. Facts of each instruction as syntax, one lemma for each constructor. -/

namespace Sys2Proof.Laws

/-- An instruction is the one its three fields make, and its operation's code stands for its operation. -/
def Fields.Statement (i : Instr) : Prop :=
  Instr.make i.operation i.mode i.val = i ∧ Operation.ofCode (i.operation.code : Int) = some i.operation

theorem Fields.hlt (mode : Mode) (val : Nat) : Fields.Statement (.hlt mode val) := ⟨rfl, rfl⟩
theorem Fields.lda (mode : Mode) (val : Nat) : Fields.Statement (.lda mode val) := ⟨rfl, rfl⟩
theorem Fields.str (mode : Mode) (val : Nat) : Fields.Statement (.str mode val) := ⟨rfl, rfl⟩
theorem Fields.add (mode : Mode) (val : Nat) : Fields.Statement (.add mode val) := ⟨rfl, rfl⟩
theorem Fields.sub (mode : Mode) (val : Nat) : Fields.Statement (.sub mode val) := ⟨rfl, rfl⟩
theorem Fields.and (mode : Mode) (val : Nat) : Fields.Statement (.and mode val) := ⟨rfl, rfl⟩
theorem Fields.orr (mode : Mode) (val : Nat) : Fields.Statement (.orr mode val) := ⟨rfl, rfl⟩
theorem Fields.xor (mode : Mode) (val : Nat) : Fields.Statement (.xor mode val) := ⟨rfl, rfl⟩
theorem Fields.not (mode : Mode) (val : Nat) : Fields.Statement (.not mode val) := ⟨rfl, rfl⟩
theorem Fields.lsl (mode : Mode) (val : Nat) : Fields.Statement (.lsl mode val) := ⟨rfl, rfl⟩
theorem Fields.lsr (mode : Mode) (val : Nat) : Fields.Statement (.lsr mode val) := ⟨rfl, rfl⟩
theorem Fields.bze (mode : Mode) (val : Nat) : Fields.Statement (.bze mode val) := ⟨rfl, rfl⟩
theorem Fields.bne (mode : Mode) (val : Nat) : Fields.Statement (.bne mode val) := ⟨rfl, rfl⟩
theorem Fields.bpo (mode : Mode) (val : Nat) : Fields.Statement (.bpo mode val) := ⟨rfl, rfl⟩
theorem Fields.bnz (mode : Mode) (val : Nat) : Fields.Statement (.bnz mode val) := ⟨rfl, rfl⟩
theorem Fields.jmp (mode : Mode) (val : Nat) : Fields.Statement (.jmp mode val) := ⟨rfl, rfl⟩

end Sys2Proof.Laws
end

