-- ==== Sys2Proof/Tests/Slice0.lean ====
section
/-! SUPPORT. The model's own tests. The expected results are the spec's: the instruction rules' examples and the
vectors of 95_test_vectors.md, cited at each test. After them, for each statement of Obligations.lean that has
hypotheses, a witness that concrete states and operands meet them, at the boundaries of each clause. -/

open Sys2Proof Sys2Proof.Machine

namespace Sys2Proof.Tests

/-- A state under the spec's default parameters. -/
def at' (pc acc : Int) (cells : Memory) : State :=
  { State.reset with pc := pc, acc := acc, reg := cells }

/-- The same under other parameters. -/
def under (cfg : Config) (s : State) : State := { s with cfg := cfg }

/-- The state one step later, where there is one. -/
def after (s : State) : Option State :=
  match step s with
  | .next t => some t
  | .fault _ => none
  | .refused _ => none

/-- What one step leaves in `acc` and `pc`. -/
def accPc (s : State) : Option (Int × Int) := (after s).map fun t => (t.acc, t.pc)

/-- The record a step leaves. -/
def faultOf (s : State) : Option FaultRecord := (after s).bind fun t => t.fault

abbrev MIN : Int := -9223372036854775808
abbrev MAX : Int := 9223372036854775807

def wrapping : Config := { Config.default with arithOvf := .wrap }
def logical : Config := { Config.default with lsrKind := .logical }
def literal : Config := { Config.default with strDest := .literal }
def location : Config := { Config.default with strDest := .location }

/-! ## Well-formedness and the codec -/

theorem test_wellFormed_refuses_65536 : (Instr.add .immediate 65536).wellFormed = false := by decide
theorem test_wellFormed_accepts_65535 : (Instr.add .immediate 65535).wellFormed = true := by decide
theorem test_encode_refuses_ill_formed :
    encode (.jmp .direct 65536) = none ∧ encodeFields .lda .immediate (-1) = none := by decide

/-- 95_test_vectors.md section 3.1. -/
theorem test_decode_data_movement :
    decode 0x107D0 = some (.hlt .direct 2000) ∧ decode 0x60005 = some (.lda .indirect 5) ∧
    decode 0x8000F = some (.str .immediate 15) := by decide
/-- 95_test_vectors.md section 3.2. -/
theorem test_decode_alu :
    decode 0xD0009 = some (.add .direct 9) ∧ decode 0x100001 = some (.sub .immediate 1) ∧
    decode 0x1400FF = some (.and .immediate 255) ∧ decode 0x190009 = some (.orr .direct 9) ∧
    decode 0x1C0001 = some (.xor .immediate 1) ∧ decode 0x211388 = some (.not .direct 5000) ∧
    decode 0x24003F = some (.lsl .immediate 63) ∧ decode 0x290009 = some (.lsr .direct 9) := by decide
/-- 95_test_vectors.md section 3.3. -/
theorem test_decode_control :
    decode 0x2C000C = some (.bze .immediate 12) ∧ decode 0x300004 = some (.bne .immediate 4) ∧
    decode 0x34000B = some (.bpo .immediate 11) ∧ decode 0x380000 = some (.bnz .immediate 0) ∧
    decode 0x3E0009 = some (.jmp .indirect 9) := by decide
/-- 95_test_vectors.md section 2. -/
theorem test_decode_rejects :
    decode 0x30000 = none ∧ decode 0x3FFFFF = none ∧ decode 0x400000 = none ∧ decode (-1) = none ∧
    decode (-262144) = none := by decide
theorem test_decodeTableWord : decodeTableWord 24 0x3C0004 = some (.jmp .immediate 4) := by decide
theorem test_withFetchWord : accPc (State.reset.withFetchWord 24 0x40005) = some (5, 1) := by decide

/-! ## HLT, LDA, STR (95_test_vectors.md section 3.1) -/

theorem test_hlt : (after (at' 0 9 [(0, 0xFFFF)])).map (fun t => (t.halted, t.pc)) = some (true, 1) := by
  decide
theorem test_hlt_operand_fault : (after (at' 0 0 [(0, 0x20005), (5, -1)])).map (fun t => (t.halted, t.fault)) =
    some (false, some ⟨.operandAddressFault, 0, -1⟩) := by decide
theorem test_lda_indirect : accPc (at' 0 0 [(0, 0x60005), (5, 9), (9, 77)]) = some (77, 1) := by decide
theorem test_lda_own_word : accPc (at' 0 3 [(0, 0x50000)]) = some (327680, 1) := by decide
theorem test_str_three_readings :
    (after (at' 0 7 [(0, 0xA0003), (3, 20), (20, 30)])).map (fun t => t.reg.read 30) = some 7 ∧
    (after (under literal (at' 0 7 [(0, 0xA0003), (3, 20), (20, 30)]))).map (fun t => t.reg.read 3) = some 7 ∧
    (after (under location (at' 0 7 [(0, 0xA0003), (3, 20), (20, 30)]))).map (fun t => t.reg.read 20) =
      some 7 := by decide
theorem test_str_out_of_range :
    faultOf (at' 0 7 [(0, 0x80400)]) = some ⟨.storeAddressFault, 0, 1024⟩ := by decide

/-! ## The ALU (95_test_vectors.md section 3.2) -/

theorem test_add_overflow_faults :
    faultOf (at' 0 MIN [(0, 0xD0009), (9, -1)]) = some ⟨.arithmeticOverflow, 0, -1⟩ := by decide
theorem test_add_wraps : accPc (under wrapping (at' 0 MAX [(0, 0xC0001)])) = some (MIN, 1) := by decide
theorem test_sub_min : accPc (at' 0 (-1) [(0, 0x110009), (9, MIN)]) = some (MAX, 1) := by decide
theorem test_sub_overflow_faults :
    faultOf (at' 0 0 [(0, 0x110009), (9, MIN)]) = some ⟨.arithmeticOverflow, 0, MIN⟩ := by decide
theorem test_and : accPc (at' 0 (-16) [(0, 0x1400FF)]) = some (240, 1) := by decide
theorem test_orr : accPc (at' 0 5 [(0, 0x190009), (9, MIN)]) = some (-9223372036854775803, 1) := by decide
theorem test_xor : accPc (at' 0 (-1) [(0, 0x1C0001)]) = some (-2, 1) := by decide
theorem test_not : accPc (at' 0 MAX [(0, 0x200000)]) = some (MIN, 1) := by decide
theorem test_lsl_sign_bit : accPc (at' 0 1 [(0, 0x24003F)]) = some (MIN, 1) := by decide
theorem test_lsl_huge : accPc (at' 0 (-1) [(0, 0x24FFFF)]) = some (0, 1) := by decide
theorem test_lsr_both_kinds :
    accPc (at' 0 (-16) [(0, 0x280002)]) = some (-4, 1) ∧
    accPc (under logical (at' 0 (-16) [(0, 0x280002)])) = some (4611686018427387900, 1) := by decide
theorem test_lsr_negative_amount :
    faultOf (at' 0 8 [(0, 0x290009), (9, -2)]) = some ⟨.shiftAmountFault, 0, -2⟩ := by decide

/-! ## Control transfer (95_test_vectors.md section 3.3) -/

theorem test_bze : accPc (at' 1 0 [(1, 0x2C000C)]) = some (0, 12) ∧
    accPc (at' 1 5 [(1, 0x2C000C)]) = some (5, 2) := by decide
theorem test_bne_is_negative : accPc (at' 2 (-1) [(2, 0x300004)]) = some (-1, 4) ∧
    accPc (at' 2 0 [(2, 0x300004)]) = some (0, 3) := by decide
theorem test_bpo_is_strict : accPc (at' 9 3871 [(9, 0x34000B)]) = some (3871, 11) ∧
    accPc (at' 9 0 [(9, 0x34000B)]) = some (0, 10) := by decide
theorem test_bnz : accPc (at' 9 (-3) [(9, 0x380000)]) = some (-3, 0) ∧
    accPc (at' 9 0 [(9, 0x380000)]) = some (0, 10) := by decide
theorem test_jmp_indirect : accPc (at' 3 0 [(3, 0x3E0009), (9, 10), (10, 77)]) = some (0, 77) := by decide

/-! ## The cycle (95_test_vectors.md section 3.4) and the assembler (section 3.5) -/

theorem test_fetch_out_of_range :
    (after (at' 1024 1 [])).map (fun t => (t.pc, t.fault)) = some (1024, some ⟨.fetchFault, 1024, 1024⟩) := by
  decide
theorem test_decode_fault :
    (after (at' 2 (-1) [(2, -1)])).map (fun t => (t.pc, t.fault)) = some (3, some ⟨.decodeFault, 2, -1⟩) := by
  decide
theorem test_halted_takes_no_step : after { at' 0 0 [] with halted := true } = none := by decide
theorem test_assemble_variables :
    assemble "$define ate\nLDA RRate".toList = .ok [0x60001] := by rfl
theorem test_assemble_label_and_errors :
    assemble "@top: LDA @top".toList = .ok [0x40000] ∧
    assemble "lda #1".toList = .error .invalidOperation ∧
    assemble "LDA #65536".toList = .error .valueOverflow ∧
    assemble "@x:LDA #1".toList = .error .invalidLabelDefinition := ⟨rfl, rfl, rfl, rfl⟩

/-! ## Witnesses: states and operands that meet the hypotheses of the statements -/

/-- Cells with an in-range pointer, pointers just outside both ends, and a word in the last cell. -/
def cells : Memory := [(3, 20), (5, -1), (6, 1024), (8, 1), (9, 64), (20, 30), (1023, 0x3C03FF)]

/-- A state of the execute phase of the instruction at address 0. -/
def phase : State := at' 1 7 cells

/-- A step about to run the word `w` at the last address, 1023. -/
def last (w : Int) : State := at' 1023 0 [(1023, w)]

theorem resolves_ok : resolve phase .direct 1023 = .ok 0x3C03FF ∧ resolve phase .indirect 3 = .ok 30 ∧
    resolve phase .immediate 65535 = .ok 65535 := ⟨rfl, rfl, rfl⟩
theorem resolves_error : resolve phase .direct 1024 = .error ⟨.operandAddressFault, 1024⟩ ∧
    resolve phase .indirect 5 = .error ⟨.operandAddressFault, -1⟩ ∧
    resolve phase .indirect 6 = .error ⟨.operandAddressFault, 1024⟩ := ⟨rfl, rfl, rfl⟩

/-- A running state that meets the invariant. -/
theorem phase_inv : phase.Inv where
  cfgValid := by decide
  regWf := by decide
  regInArray := by decide
  regWords := by decide
  pcWord := by decide
  accWord := by decide
  notBoth := by decide
  faultAgrees := fun f h => nomatch h

/-- A halted state that meets the invariant. -/
theorem halted_inv : State.Inv { phase with halted := true } where
  cfgValid := by decide
  regWf := by decide
  regInArray := by decide
  regWords := by decide
  pcWord := by decide
  accWord := by decide
  notBoth := by decide
  faultAgrees := fun f h => nomatch h

/-- A faulted state that meets the invariant: the fetch failed at address 1024. -/
theorem faulted_inv :
    State.Inv { phase with pc := 1024, fault := some ⟨.fetchFault, 1024, 1024⟩ } where
  cfgValid := by decide
  regWf := by decide
  regInArray := by decide
  regWords := by decide
  pcWord := by decide
  accWord := by decide
  notBoth := by decide
  faultAgrees := fun f h => by
    cases h
    exact ⟨rfl, by decide, by decide, by decide, rfl⟩

theorem witness_EncodeDecodeRoundTrip : (65535 < 0x10000) ∧ decode 0x3EFFFF = some (.jmp .indirect 65535) := by
  decide
theorem witness_DecodeAcceptsExactlyTheKnownFields :
    (last 0x30000).status = .running ∧ fetchWord (last 0x30000) = some 0x30000 ∧
    ¬ (0 ≤ (0x30000 : Int) / 2 ^ 18 ∧ (0x30000 : Int) / 2 ^ 18 ≤ 15 ∧ (0x30000 : Int) % 2 ^ 18 / 2 ^ 16 ≠ 3) := by
  decide
theorem witness_IllegalWordsRaiseDecodeFault :
    (last 0x400000).status = .running ∧ fetchWord (last 0x400000) = some 0x400000 ∧ decode 0x400000 = none := by
  decide
theorem witness_EncoderRejectsUnencodableValues :
    (0 ≤ (65535 : Int) ∧ (65535 : Int) < 2 ^ 16) ∧ ¬ (0 ≤ (65536 : Int) ∧ (65536 : Int) < 2 ^ 16) ∧
    ¬ (0 ≤ (-1 : Int) ∧ (-1 : Int) < 2 ^ 16) := by decide
theorem witness_ModeMapIsTheListedOrder :
    1023 < phase.cfg.memSize ∧ 3 < phase.cfg.memSize ∧ phase.inArray (phase.reg.read 3) := by decide
theorem witness_ZeroWordHalts :
    (last 0).status = .running ∧ fetchWord (last 0) = some 0 ∧
    launch Config.default [1] [2] = .next (resetState Config.default [1] [2]) ∧
    [1].length + [2].length ≤ 2 ∧ 1023 < Config.default.memSize := ⟨rfl, rfl, rfl, by decide, by decide⟩
theorem witness_StepRunsDecodedInstruction :
    (last 5).status = .running ∧ ¬ (0 ≤ (at' (-1) 0 []).pc ∧ (at' (-1) 0 []).pc < (at' (-1) 0 []).cfg.memSize) ∧
    ¬ (0 ≤ (at' 1024 0 []).pc ∧ (at' 1024 0 []).pc < (at' 1024 0 []).cfg.memSize) ∧
    (0 ≤ (last 5).pc ∧ (last 5).pc < (last 5).cfg.memSize) ∧
    decode ((last 5).reg.read (last 5).pc.toNat) = some (.hlt .immediate 5) ∧
    decode ((last (-1)).reg.read (last (-1)).pc.toNat) = none := by decide
theorem witness_TerminalStatesTakeNoStep :
    State.halted { phase with halted := true } = true ∧
    State.fault { phase with fault := some ⟨.decodeFault, 0, -1⟩ } ≠ none := by decide
theorem witness_RunningMachineAlwaysSteps : phase.status = .running := by decide
theorem witness_StatusIsDerived : phase.Inv ∧ State.Inv { phase with halted := true } ∧
    State.Inv { phase with pc := 1024, fault := some ⟨.fetchFault, 1024, 1024⟩ } :=
  ⟨phase_inv, halted_inv, faulted_inv⟩
theorem witness_OperandIsResolvedForEveryInstruction :
    1023 < phase.cfg.memSize ∧ phase.cfg.memSize ≤ 1024 ∧
    (0 ≤ phase.reg.read 3 ∧ phase.reg.read 3 < phase.cfg.memSize) ∧
    ¬ (0 ≤ phase.reg.read 5 ∧ phase.reg.read 5 < phase.cfg.memSize) ∧
    ¬ (0 ≤ phase.reg.read 6 ∧ phase.reg.read 6 < phase.cfg.memSize) ∧
    resolve phase (Instr.hlt .direct 1024).mode (Instr.hlt .direct 1024).val =
      .error ⟨.operandAddressFault, 1024⟩ := ⟨by decide, by decide, by decide, by decide, by decide, rfl⟩
theorem witness_OutOfRangeAccessFaults :
    (at' 1024 0 []).status = .running ∧ ¬ (at' 1024 0 []).inArray (at' 1024 0 []).pc ∧
    (Instr.not .direct 1024).mode ≠ .immediate ∧ ¬ phase.inArray 1024 ∧
    (Instr.jmp .indirect 5).mode = .indirect ∧ phase.inArray 5 ∧ ¬ phase.inArray (phase.reg.read 5) ∧
    resolve phase .immediate 1024 = .ok 1024 ∧ ¬ phase.inArray (storeDest phase .immediate 1024 1024) :=
  ⟨rfl, by decide, by decide, by decide, rfl, by decide, by decide, rfl, by decide⟩
theorem witness_HltSetsHalted :
    resolve phase .direct 1023 = .ok 0x3C03FF ∧ resolve phase .indirect 6 = .error ⟨.operandAddressFault, 1024⟩ :=
  ⟨rfl, rfl⟩
theorem witness_LdaLoadsEffectiveValue :
    resolve phase .indirect 3 = .ok 30 ∧ resolve phase .direct 1024 = .error ⟨.operandAddressFault, 1024⟩ :=
  ⟨rfl, rfl⟩
theorem witness_StrWritesTheSelectedCell :
    resolve phase .indirect 3 = .ok 30 ∧ phase.cfg.strDest = .effective ∧ phase.inArray 30 ∧
    resolve (under literal phase) .indirect 3 = .ok 30 ∧ (under literal phase).cfg.strDest = .literal ∧
    (under literal phase).inArray 3 ∧
    resolve (under location phase) .indirect 3 = .ok 30 ∧ (under location phase).cfg.strDest = .location ∧
    (under location phase).inArray ((under location phase).reg.read 3) ∧
    resolve phase .immediate 1023 = .ok 1023 ∧ phase.inArray 1023 ∧
    resolve phase .immediate 1024 = .ok 1024 ∧ ¬ phase.inArray 1024 ∧
    resolve phase .direct 1024 = .error ⟨.operandAddressFault, 1024⟩ :=
  ⟨rfl, rfl, by decide, rfl, rfl, by decide, rfl, rfl, by decide, rfl, by decide, rfl, by decide, rfl⟩
theorem witness_StrChangesExactlyItsCell :
    Memory.wf phase.reg ∧ resolve phase .immediate 1023 = .ok 1023 ∧
    phase.inArray (storeDest phase .immediate 1023 1023) := ⟨by decide, rfl, by decide⟩
theorem witness_AddWritesSumOrOverflows :
    resolve phase .direct 8 = .ok 1 ∧
    (-2 ^ (phase.cfg.w - 1) ≤ (MAX - 1) + 1 ∧ (MAX - 1) + 1 < 2 ^ (phase.cfg.w - 1)) ∧
    ¬ (-2 ^ (phase.cfg.w - 1) ≤ MAX + 1 ∧ MAX + 1 < 2 ^ (phase.cfg.w - 1)) ∧
    phase.cfg.arithOvf = .fault ∧ (under wrapping phase).cfg.arithOvf = .wrap ∧
    resolve phase .indirect 5 = .error ⟨.operandAddressFault, -1⟩ :=
  ⟨rfl, by decide, by decide, rfl, rfl, rfl⟩
theorem witness_SubWritesDifferenceOrOverflows :
    resolve phase .direct 8 = .ok 1 ∧
    (-2 ^ (phase.cfg.w - 1) ≤ (MIN + 1) - 1 ∧ (MIN + 1) - 1 < 2 ^ (phase.cfg.w - 1)) ∧
    ¬ (-2 ^ (phase.cfg.w - 1) ≤ MIN - 1 ∧ MIN - 1 < 2 ^ (phase.cfg.w - 1)) ∧
    phase.cfg.arithOvf = .fault ∧ (under wrapping phase).cfg.arithOvf = .wrap ∧
    resolve phase .indirect 5 = .error ⟨.operandAddressFault, -1⟩ :=
  ⟨rfl, by decide, by decide, rfl, rfl, rfl⟩
theorem witness_BitwiseInstructionsCombinePatterns :
    resolve phase .direct 5 = .ok (-1) ∧ resolve phase .direct 1024 = .error ⟨.operandAddressFault, 1024⟩ :=
  ⟨rfl, rfl⟩
theorem witness_BitwiseInstructionsActBitByBit :
    1 ≤ phase.cfg.w ∧ resolve phase .direct 5 = .ok (-1) ∧ 63 < phase.cfg.w := ⟨by decide, rfl, by decide⟩
theorem witness_BitwiseCornerCases :
    phase.Inv ∧ 65535 < 65536 ∧ resolve phase .direct 5 = .ok (-1) := ⟨phase_inv, by decide, rfl⟩
theorem witness_NotComplementsAcc :
    resolve phase .immediate 0 = .ok 0 ∧ isWord phase.cfg.w phase.acc ∧
    resolve phase .direct 1024 = .error ⟨.operandAddressFault, 1024⟩ := ⟨rfl, by decide, rfl⟩
theorem witness_LslShiftsLeft :
    resolve phase .immediate 0 = .ok 0 ∧ resolve phase .direct 9 = .ok 64 ∧ ((phase.cfg.w : Nat) : Int) ≤ 64 ∧
    resolve phase .direct 5 = .ok (-1) ∧ resolve phase .direct 1024 = .error ⟨.operandAddressFault, 1024⟩ :=
  ⟨rfl, rfl, by decide, rfl, rfl⟩
theorem witness_LsrShiftsRight :
    resolve phase .immediate 0 = .ok 0 ∧ phase.cfg.lsrKind = .arithmetic ∧
    (under logical phase).cfg.lsrKind = .logical ∧ 1 ≤ phase.cfg.w ∧ isWord phase.cfg.w phase.acc ∧ 0 ≤ phase.acc ∧
    resolve phase .direct 5 = .ok (-1) ∧ resolve phase .direct 1024 = .error ⟨.operandAddressFault, 1024⟩ :=
  ⟨rfl, rfl, rfl, by decide, by decide, by decide, rfl, rfl⟩
theorem witness_BzeAndBnzTestZero :
    resolve phase .direct 1023 = .ok 0x3C03FF ∧ phase.acc ≠ 0 ∧ State.acc { phase with acc := 0 } = 0 ∧
    resolve phase .direct 1024 = .error ⟨.operandAddressFault, 1024⟩ := ⟨rfl, by decide, rfl, rfl⟩
theorem witness_BneAndBpoTestTheSign :
    resolve phase .direct 1023 = .ok 0x3C03FF ∧ State.acc { phase with acc := -1 } < 0 ∧
    0 ≤ State.acc { phase with acc := 0 } ∧ 0 < State.acc { phase with acc := 1 } ∧
    resolve phase .direct 1024 = .error ⟨.operandAddressFault, 1024⟩ :=
  ⟨rfl, by decide, by decide, by decide, rfl⟩
theorem witness_ExactlyOneSignBranchIsTaken :
    resolve phase .direct 1023 = .ok 0x3C03FF ∧ (0x3C03FF : Int) ≠ phase.pc := ⟨rfl, by decide⟩
theorem witness_JmpWritesPc :
    resolve phase .immediate 1024 = .ok 1024 ∧ phase.status = .running ∧ ¬ phase.inArray 1024 ∧
    resolve phase .direct 1024 = .error ⟨.operandAddressFault, 1024⟩ := ⟨rfl, rfl, by decide, rfl⟩
theorem witness_SelfJumpNeverEnds :
    (last 0x3C03FF).status = .running ∧ (last 0x3C03FF).pc = (1023 : Nat) ∧
    fetches (last 0x3C03FF) (.jmp .immediate 1023) ∧
    fetches (last 0x2C03FF) (.bze .immediate 1023) ∧ (last 0x2C03FF).acc = 0 :=
  ⟨rfl, rfl, ⟨0x3C03FF, by decide⟩, ⟨0x2C03FF, by decide⟩, rfl⟩
theorem witness_FaultingStepWritesOnlyRecordAndPc :
    faultOf (at' 1024 0 []) = some ⟨.fetchFault, 1024, 1024⟩ ∧
    faultOf (last 0x90005) = none ∧ faultOf (last 0x107D0) = some ⟨.operandAddressFault, 1023, 2000⟩ := by decide
theorem witness_FirstFaultInStepOrderIsReported :
    phase.status = .running ∧ ¬ (at' (-1) 0 []).inArray (at' (-1) 0 []).pc ∧
    (fetchWord (last (-1)) = some (-1) ∧ decode (-1) = none) ∧
    (fetches (last 0x50400) (.lda .direct 1024) ∧ ¬ (last 0x50400).inArray 1024) ∧
    (fetches (at' 1023 0 [(5, -1), (1023, 0x60005)]) (.lda .indirect 5) ∧
      (at' 1023 0 [(5, -1), (1023, 0x60005)]).inArray 5 ∧
      ¬ (at' 1023 0 [(5, -1), (1023, 0x60005)]).inArray
        ((at' 1023 0 [(5, -1), (1023, 0x60005)]).reg.read 5)) ∧
    faultOf (last 0x80400) = some ⟨.storeAddressFault, 1023, 1024⟩ :=
  ⟨rfl, by decide, by decide, ⟨⟨0x50400, by decide⟩, by decide⟩, ⟨⟨0x60005, by decide⟩, by decide, by decide⟩,
    by decide⟩
theorem witness_RecordedFaultMatchesItsCause :
    faultOf (last 0x400000) = some ⟨.decodeFault, 1023, 0x400000⟩ ∧
    faultOf (at' (-1) 0 []) = some ⟨.fetchFault, -1, -1⟩ ∧
    faultOf (last 0x20400) = some ⟨.operandAddressFault, 1023, 1024⟩ ∧
    faultOf (last 0x80400) = some ⟨.storeAddressFault, 1023, 1024⟩ ∧
    faultOf (at' 1023 MAX [(1023, 0xC0001)]) = some ⟨.arithmeticOverflow, 1023, 1⟩ ∧
    faultOf (at' 1023 0 [(5, -1), (1023, 0x250005)]) = some ⟨.shiftAmountFault, 1023, -1⟩ := by decide
theorem witness_FaultRecordIsFinal :
    launch Config.default [] [1] = .next (resetState Config.default [] [1]) ∧
    after (last 5) ≠ none ∧ State.fault { phase with fault := some ⟨.decodeFault, 0, -1⟩ } ≠ none :=
  ⟨rfl, by decide, by decide⟩
theorem witness_OnlyStrWritesCells :
    Memory.wf phase.reg ∧ exec (.lda .immediate 1) phase = .next { phase with acc := 1 } ∧
    (Instr.lda .immediate 1).operation ≠ .str ∧ (Instr.str .immediate 1023).operation = .str ∧
    resolve phase .immediate 1023 = .ok 1023 ∧ storeDest phase .immediate 1023 1023 = 1023 ∧
    ((1022 : Nat) : Int) ≠ 1023 := ⟨by decide, rfl, by decide, rfl, rfl, rfl, by decide⟩
theorem witness_OnlyLdaAndAluWriteAcc :
    exec (.lda .immediate 1) phase = .next { phase with acc := 1 } ∧ (1 : Int) ≠ phase.acc := ⟨rfl, by decide⟩
theorem witness_OnlyHltSetsHaltedForGood :
    launch Config.default [0] [] = .next (resetState Config.default [0] []) ∧
    (after (last 5)).map (fun t => t.halted) = some true ∧ State.halted { phase with halted := true } = true :=
  ⟨rfl, by decide, rfl⟩
theorem witness_NextInstructionFollowsUnlessTransferred :
    (last 5).status = .running ∧ fetches (last 5) (.hlt .immediate 5) ∧ after (last 5) ≠ none ∧
    fetches (last 0x3C0000) (.jmp .immediate 0) ∧ after (last 0x3C0000) ≠ none :=
  ⟨rfl, ⟨5, by decide⟩, by decide, ⟨0x3C0000, by decide⟩, by decide⟩
theorem witness_StepKeepsConfiguration : after (last 5) ≠ none := by decide
theorem witness_PcNeverWraps :
    phase.Inv ∧ phase.inArray phase.pc ∧ fetches phase (.hlt .immediate 0) ∧
    resolve phase.advance .immediate 0 = .ok 0 := ⟨phase_inv, by decide, ⟨0, by decide⟩, rfl⟩
theorem witness_NoInstructionReadsHaltedOrFault :
    exec (.jmp .immediate 3) phase = .next { phase with pc := 3 } := rfl
theorem witness_HltJmpAndLdaDoNotReadAcc :
    exec (.jmp .immediate 3) phase = .next { phase with pc := 3 } ∧
    exec (.hlt .immediate 3) phase = .next { phase with halted := true } ∧
    resolve phase .direct 1023 = .ok 0x3C03FF := ⟨rfl, rfl, rfl⟩
theorem witness_CellsHoldTheirMostRecentStore :
    Memory.wf (last 0x803FF).reg ∧ (last 0x803FF).inArray 1023 ∧ storesTo (last 0x803FF) 1023 ∧
    (∀ k < 1, ¬ storesTo (run k (last 5)) (1023 : Nat)) ∧ (last 5).inArray (last 5).pc := by
  refine ⟨by decide, by decide, ⟨.immediate, 1023, 1023, rfl, ⟨0x803FF, by decide⟩, rfl, rfl⟩, ?_, by decide⟩
  rintro k hk ⟨mode, val, v, -, ⟨w, hf, hd⟩, -⟩
  obtain rfl : k = 0 := by omega
  have hw : fetchWord (last 5) = some 5 := by decide
  cases hw.symm.trans hf
  have h5 : decode 5 = some (.hlt .immediate 5) := by decide
  cases h5.symm.trans hd
theorem witness_StepKeepsInvariant : phase.Inv ∧ after phase ≠ none := ⟨phase_inv, by decide⟩
theorem witness_LaunchedRunsKeepInvariant :
    launch Config.default [0x40005, 0] [-1] = .next (resetState Config.default [0x40005, 0] [-1]) := rfl
theorem witness_LaunchGivesResetState :
    validLaunch Config.default [0x40005, 0] [-1] ∧ 1 < [0x40005, 0].length ∧ 0 < [-1].length ∧
    [0x40005, 0].length + [-1].length ≤ 3 ∧ 1023 < Config.default.memSize := by decide
theorem witness_InvalidLaunchIsRefused :
    validLaunch ⟨23, 2, .wrap, .logical, .literal⟩ [0] [0x3FFFFF] ∧
    ¬ [0].length + [1, 2].length ≤ (⟨23, 2, .wrap, .logical, .literal⟩ : Config).memSize ∧
    ¬ isWord 23 0x400000 ∧ ¬ 23 ≤ (⟨22, 2, .wrap, .logical, .literal⟩ : Config).w := by decide
theorem witness_RunRepeatsTheStepWhileRunning :
    phase.status = .running ∧ 1 ≤ 2 ∧ (run 1 (last 5)).status ≠ .running := by decide
theorem witness_ObservationIsTheFinalTuple :
    phase.status = .running ∧ State.status { phase with halted := true } ≠ .running := by decide
theorem witness_TruncationIsTwosComplement :
    1 ≤ 64 ∧ isWord 64 MIN ∧ (2 : Int) ^ 64 ∣ MIN - (MAX + 1) := by decide
theorem witness_AssembledWordsAllDecode : assemble "@top: LDA @top".toList = .ok [0x40000] := rfl
theorem witness_VariablesFollowTheProgram :
    (definitionTexts (sourceLines "$define b\nLDA Rb\n\n$define  a\nHLT".toList)).map tokens =
      [['b'], ['a']].map (fun name => [definitionWord, name]) ∧ [['b'], ['a']].Nodup ∧
    variablePass 2 [] (sourceLines "$define b\nLDA Rb\n\n$define  a\nHLT".toList) =
      .ok [(['b'], 2), (['a'], 3)] := ⟨rfl, by decide, rfl⟩
theorem witness_VariablesFollowTheProgram_twice :
    2 ≤ ((definitionTexts (sourceLines "$define b\nHLT\n$define b".toList)).map tokens).count
      [definitionWord, ['b']] ∧
    labelPass 0 [] (sourceLines "$define b\nHLT\n$define b".toList) = .ok [] := ⟨by decide, rfl⟩
theorem witness_VariablesFollowTheProgram_malformed :
    definitionTexts (sourceLines "$define a b".toList) = ["$define a b".toList] ∧
    tokens "$define a b".toList = [definitionWord, ['a'], ['b']] := ⟨rfl, rfl⟩
theorem witness_SpellingAssemblesBack : decode 0x3EFFFF = some (.jmp .indirect 65535) := by decide

end Sys2Proof.Tests
end

section
/-! PROOFS. `trunc_W` and `u_W` as two's complement, and the bitwise instructions bit by bit
(00_scope.md R11, 42_alu.md R143 to R145). -/

namespace Sys2Proof.Machine

theorem dvd_truncW_sub (w : Nat) (x : Int) : (2 : Int) ^ w ∣ truncW w x - x :=
  Int.ModEq.dvd (truncW_emod w x).symm

theorem eq_truncW_of_dvd_sub (w : Nat) (h : 1 ≤ w) (x y : Int) (hy : isWord w y)
    (hyx : (2 : Int) ^ w ∣ y - x) : y = truncW w x := by
  have hmod : y % 2 ^ w = x % 2 ^ w := (Int.modEq_iff_dvd.mpr hyx).symm
  exact isWord_unique w h _ _ hy (truncW_isWord w h x) (hmod.trans (truncW_emod w x).symm)

/-- Settles O53: existence from the range and the residue of `trunc_W`, uniqueness because a W-bit value is
fixed by its residue. -/
theorem truncationIsTwosComplement : Obligations.TruncationIsTwosComplement := fun w x h =>
  ⟨truncW_isWord w h x, dvd_truncW_sub w x, eq_truncW_of_dvd_sub w h x, unsignedW_cast w x⟩

/-- An operation that keeps W-bit patterns W-bit patterns survives `trunc_W`: the pattern of its result is
the operation on the two patterns. -/
theorem unsignedW_bitwiseW (w : Nat) (op : Nat → Nat → Nat) (x y : Int)
    (hop : ∀ {a b : Nat}, a < 2 ^ w → b < 2 ^ w → op a b < 2 ^ w) :
    unsignedW w (bitwiseW w op x y) = op (unsignedW w x) (unsignedW w y) := by
  unfold bitwiseW
  rw [unsignedW_truncW, unsignedW_of_lt w _ (hop (unsignedW_lt w x) (unsignedW_lt w y))]

theorem testBit_bitwiseW_and (w : Nat) (x y : Int) (k : Nat) :
    (unsignedW w (bitwiseW w (· &&& ·) x y)).testBit k =
      ((unsignedW w x).testBit k && (unsignedW w y).testBit k) := by
  rw [unsignedW_bitwiseW w _ x y fun _ hb => Nat.and_lt_two_pow _ hb, Nat.testBit_and]

theorem testBit_bitwiseW_or (w : Nat) (x y : Int) (k : Nat) :
    (unsignedW w (bitwiseW w (· ||| ·) x y)).testBit k =
      ((unsignedW w x).testBit k || (unsignedW w y).testBit k) := by
  rw [unsignedW_bitwiseW w _ x y Nat.or_lt_two_pow, Nat.testBit_or]

theorem testBit_bitwiseW_xor (w : Nat) (x y : Int) (k : Nat) :
    (unsignedW w (bitwiseW w (· ^^^ ·) x y)).testBit k =
      ((unsignedW w x).testBit k ^^ (unsignedW w y).testBit k) := by
  rw [unsignedW_bitwiseW w _ x y Nat.xor_lt_two_pow, Nat.testBit_xor]

theorem exec_and_of_resolve_ok (s : State) (mode : Mode) (val : Nat) (v : Int)
    (h : resolve s mode val = .ok v) :
    exec (.and mode val) s = .next { s with acc := bitwiseW s.cfg.w (· &&& ·) s.acc v } :=
  withOperand_ok s mode val v _ h

theorem exec_orr_of_resolve_ok (s : State) (mode : Mode) (val : Nat) (v : Int)
    (h : resolve s mode val = .ok v) :
    exec (.orr mode val) s = .next { s with acc := bitwiseW s.cfg.w (· ||| ·) s.acc v } :=
  withOperand_ok s mode val v _ h

theorem exec_xor_of_resolve_ok (s : State) (mode : Mode) (val : Nat) (v : Int)
    (h : resolve s mode val = .ok v) :
    exec (.xor mode val) s = .next { s with acc := bitwiseW s.cfg.w (· ^^^ ·) s.acc v } :=
  withOperand_ok s mode val v _ h

/-- Settles O22: each instruction writes `bitwiseW` of its operation, whose pattern has the stated bits. -/
theorem bitwiseInstructionsActBitByBit : Obligations.BitwiseInstructionsActBitByBit :=
  fun s mode val v _ hv =>
    ⟨_, _, _, exec_and_of_resolve_ok s mode val v hv, exec_orr_of_resolve_ok s mode val v hv,
      exec_xor_of_resolve_ok s mode val v hv, fun k _ =>
        ⟨testBit_bitwiseW_and s.cfg.w s.acc v k, testBit_bitwiseW_or s.cfg.w s.acc v k,
          testBit_bitwiseW_xor s.cfg.w s.acc v k⟩⟩

end Sys2Proof.Machine
end

section
/-! PROOFS. What a run and an execute phase leave unchanged (10_state.md R25, R26, R31): the frame of each
shared operation, then of `exec` and `step`, then of `run` by one induction. -/

namespace Sys2Proof.Machine

/-! ## Run -/

/-- What every step keeps, a run keeps. -/
theorem run_induction (P : State → Prop) (hstep : ∀ s t, P s → step s = .next t → P t) (n : Nat) (s : State)
    (hs : P s) : P (run n s) := by
  induction n generalizing s with
  | zero => exact hs
  | succ n ih =>
    rw [run]
    cases h : step s with
    | next t => exact ih t (hstep s t hs h)
    | fault r => exact hs
    | refused r => exact hs

/-- A run leaves a terminal state as it is (40_execution_cycle.md R110). -/
theorem run_of_not_running (n : Nat) (s : State) (h : s.status ≠ .running) : run n s = s :=
  run_induction (· = s) (fun _ t hu hn => absurd (hu ▸ hn) (step_terminal s t h)) n s rfl

/-- A valid launch answers its reset state, and no other launch answers a state. -/
theorem launch_next (c : Config) (program seed : List Int) (s : State) :
    launch c program seed = .next s ↔ validLaunch c program seed ∧ s = resetState c program seed := by
  unfold launch
  by_cases h : validLaunch c program seed
  · rw [if_pos h, Host.Outcome.next.injEq]
    exact ⟨fun h' => ⟨h, h'.symm⟩, fun h' => h'.2.symm⟩
  · rw [if_neg h]
    exact ⟨fun h' => (nomatch h'), fun h' => absurd h'.1 h⟩

/-! ## The execute phase and the step -/

@[simp] theorem finishSum_frame (s : State) (r v : Int) :
    (finishSum s r v).cfg = s.cfg ∧ (finishSum s r v).reg = s.reg ∧ (finishSum s r v).halted = s.halted := by
  rcases finishSum_cases s r v with ⟨-, h⟩ | ⟨-, -, h⟩ | ⟨-, -, h⟩ <;> rw [h] <;> exact ⟨rfl, rfl, rfl⟩

@[simp] theorem finishShift_frame (s : State) (v : Int) (shift : Nat → Int) :
    (finishShift s v shift).cfg = s.cfg ∧ (finishShift s v shift).reg = s.reg ∧
      (finishShift s v shift).halted = s.halted := by
  rcases finishShift_cases s v shift with ⟨-, h⟩ | ⟨-, h⟩ <;> rw [h] <;> exact ⟨rfl, rfl, rfl⟩

@[simp] theorem branchIf_frame (s : State) (cond : Bool) (v : Int) :
    (branchIf s cond v).cfg = s.cfg ∧ (branchIf s cond v).reg = s.reg ∧
      (branchIf s cond v).halted = s.halted ∧ (branchIf s cond v).fault = s.fault := by
  cases cond <;> exact ⟨rfl, rfl, rfl, rfl⟩

/-- The fault record of `t` is that of `s`, or one whose address is that of the instruction executing in `s`
(60_exceptions.md R194). -/
def KeepsOrRecordsFault (s t : State) : Prop :=
  t.fault = s.fault ∨ ∃ f, t.fault = some f ∧ f.fpc = s.instrAddr

theorem raise_recordsFault (s : State) (r : Raised) : KeepsOrRecordsFault s (s.raise r) :=
  Or.inr ⟨_, rfl, rfl⟩

theorem finishSum_fault (s : State) (r v : Int) :
    KeepsOrRecordsFault s (finishSum s r v) := by
  rcases finishSum_cases s r v with ⟨-, h⟩ | ⟨-, -, h⟩ | ⟨-, -, h⟩ <;> rw [h]
  · exact Or.inl rfl
  · exact raise_recordsFault s _
  · exact Or.inl rfl

theorem finishShift_fault (s : State) (v : Int) (shift : Nat → Int) :
    KeepsOrRecordsFault s (finishShift s v shift) := by
  rcases finishShift_cases s v shift with ⟨-, h⟩ | ⟨-, h⟩ <;> rw [h]
  · exact raise_recordsFault s _
  · exact Or.inl rfl

theorem Effect.cfg_eq {i : Instr} {s t : State} {v : Int} (h : Effect i s v t) : t.cfg = s.cfg := by
  cases h <;> simp

theorem Effect.halted_eq {i : Instr} {s t : State} {v : Int} (h : Effect i s v t)
    (hi : i.operation ≠ .hlt) : t.halted = s.halted := by
  cases h with
  | halts h => exact absurd h hi
  | _ => simp

theorem Effect.fault_eq {i : Instr} {s t : State} {v : Int} (h : Effect i s v t) :
    KeepsOrRecordsFault s t := by
  cases h with
  | storeFaults => exact raise_recordsFault s _
  | sums r => exact finishSum_fault s r v
  | shifts shift => exact finishShift_fault s v shift
  | _ => exact Or.inl (by simp)

theorem exec_cfg (i : Instr) (s t : State) (h : exec i s = .next t) : t.cfg = s.cfg := by
  rcases exec_cases i s t h with ⟨r, -, rfl⟩ | ⟨v, -, he⟩
  · exact raise_cfg s r
  · exact he.cfg_eq

theorem exec_halted (i : Instr) (s t : State) (h : exec i s = .next t) (hi : i.operation ≠ .hlt) :
    t.halted = s.halted := by
  rcases exec_cases i s t h with ⟨r, -, rfl⟩ | ⟨v, -, he⟩
  · exact raise_halted s r
  · exact he.halted_eq hi

theorem exec_fault (i : Instr) (s t : State) (h : exec i s = .next t) :
    KeepsOrRecordsFault s t := by
  rcases exec_cases i s t h with ⟨r, -, rfl⟩ | ⟨v, -, he⟩
  · exact raise_recordsFault s r
  · exact he.fault_eq

theorem advance_instrAddr (s : State) : s.advance.instrAddr = s.pc := Int.add_sub_cancel s.pc 1

theorem step_cfg (s t : State) (h : step s = .next t) : t.cfg = s.cfg := by
  obtain ⟨-, ⟨-, rfl⟩ | ⟨w, -, -, rfl⟩ | ⟨w, i, -, -, he⟩⟩ := step_cases s t h
  · rfl
  · rfl
  · exact exec_cfg i s.advance t he

theorem step_fault (s t : State) (h : step s = .next t) :
    t.fault = none ∨ ∃ f, t.fault = some f ∧ f.fpc = s.pc := by
  obtain ⟨hr, ⟨-, rfl⟩ | ⟨w, -, -, rfl⟩ | ⟨w, i, -, -, he⟩⟩ := step_cases s t h
  · exact Or.inr ⟨_, rfl, rfl⟩
  · exact Or.inr ⟨_, rfl, rfl⟩
  · rcases exec_fault i s.advance t he with hk | hf
    · exact Or.inl (hk.trans ((status_running s).mp hr).2)
    · rw [advance_instrAddr] at hf
      exact Or.inr hf

theorem eq_hlt_of_operation (i : Instr) (h : i.operation = .hlt) : i = .hlt i.mode i.val := by
  cases i
  case hlt => rfl
  all_goals cases h

theorem step_halted (s t : State) (h : step s = .next t) (ht : t.halted = true) :
    ∃ mode val, fetches s (.hlt mode val) := by
  obtain ⟨hr, hc⟩ := step_cases s t h
  have hs : s.halted ≠ true := by simp [((status_running s).mp hr).1]
  rcases hc with ⟨-, rfl⟩ | ⟨w, -, -, rfl⟩ | ⟨w, i, hf, hd, he⟩
  · exact absurd ht hs
  · exact absurd ht hs
  · by_cases hi : i.operation = .hlt
    · exact ⟨i.mode, i.val, w, hf, eq_hlt_of_operation i hi ▸ hd⟩
    · exact absurd ((exec_halted i s.advance t he hi).symm.trans ht) hs

theorem status_ne_running_of_fault (s : State) (f : FaultRecord) (h : s.fault = some f) :
    s.status ≠ .running := by
  simp [status_running, h]

theorem status_ne_running_of_halted (s : State) (h : s.halted = true) : s.status ≠ .running := by
  simp [status_running, h]

/-- Settles O35: a faulted state takes no step, so a run leaves it as it is. -/
theorem faultRecordIsFinal : Obligations.FaultRecordIsFinal := by
  refine ⟨fun c program seed s h => ?_, step_fault, fun s f n h => ?_⟩
  · obtain ⟨-, rfl⟩ := (launch_next c program seed s).mp h
    rfl
  · rw [run_of_not_running n s (status_ne_running_of_fault s f h), h]

/-- Settles O38: a halted state takes no step, so a run leaves it as it is. -/
theorem onlyHltSetsHaltedForGood : Obligations.OnlyHltSetsHaltedForGood := by
  refine ⟨fun c program seed s h => ?_, step_halted, fun s n h => ?_, fun _ => rfl⟩
  · obtain ⟨-, rfl⟩ := (launch_next c program seed s).mp h
    rfl
  · rw [run_of_not_running n s (status_ne_running_of_halted s h), h]

/-- Settles O40: the step's frame, and the induction over the run. -/
theorem stepKeepsConfiguration : Obligations.StepKeepsConfiguration :=
  ⟨step_cfg, fun n s =>
    run_induction (fun t => t.cfg = s.cfg) (fun t u ht hu => (step_cfg t u hu).trans ht) n s rfl⟩

end Sys2Proof.Machine
end

section
/-! PROOFS. What an instruction does not read (10_state.md R22, R26, R29): two states that differ in the unread
fields alone take related execute phases. -/

namespace Sys2Proof.Machine

/-- Two operand phases on the same configuration and register array end in related states when their faults
and their effects do. -/
theorem withOperand_related (R : State → State → Prop) (s s' t : State) (mode : Mode) (val : Nat)
    (effect effect' : Int → State) (hc : s.cfg = s'.cfg) (hr : s.reg = s'.reg)
    (h : withOperand s mode val (fun v => .next (effect v)) = .next t)
    (hraise : ∀ r, R (s.raise r) (s'.raise r)) (he : ∀ v, R (effect v) (effect' v)) :
    ∃ u, withOperand s' mode val (fun v => .next (effect' v)) = .next u ∧ R t u := by
  have hcongr := resolve_congr s s' hc hr mode val
  rcases withOperand_next s t mode val _ h with ⟨r, hv, rfl⟩ | ⟨v, hv, hn⟩
  · exact ⟨_, withOperand_error s' mode val r _ (hcongr ▸ hv), hraise r⟩
  · cases hn
    exact ⟨_, withOperand_ok s' mode val v _ (hcongr ▸ hv), he v⟩

/-- What STR does with its destination index (41_data_movement.md R122). -/
def finishStore (s : State) (d : Int) : State :=
  if s.inArray d then { s with reg := s.reg.write d.toNat s.acc }
  else s.raise { cause := .storeAddressFault, info := d }

theorem execStr_eq (mode : Mode) (val : Nat) (s : State) :
    execStr mode val s = withOperand s mode val fun v => .next (finishStore s (storeDest s mode val v)) := by
  unfold execStr finishStore State.writeCell
  congr 1
  funext v
  split_ifs <;> rfl

/-! ## The flags -/

/-- `s` under another halted flag and another fault record. -/
def State.withFlags (s : State) (h : Bool) (f : Option FaultRecord) : State :=
  { s with halted := h, fault := f }

/-- The two states agree in everything but the halted flag and the fault record. -/
def SameButFlags (t u : State) : Prop :=
  u.reg = t.reg ∧ u.pc = t.pc ∧ u.acc = t.acc ∧ u.cfg = t.cfg

section
variable (s : State) (h : Bool) (f : Option FaultRecord)

theorem finishStore_sameButFlags (d : Int) :
    SameButFlags (finishStore s d) (finishStore (s.withFlags h f) d) := by
  show SameButFlags (if s.inArray d then _ else _) (if s.inArray d then _ else _)
  split_ifs <;> exact ⟨rfl, rfl, rfl, rfl⟩

theorem finishSum_sameButFlags (r v : Int) :
    SameButFlags (finishSum s r v) (finishSum (s.withFlags h f) r v) := by
  show SameButFlags (if isWord s.cfg.w r then _ else _) (if isWord s.cfg.w r then _ else _)
  split_ifs
  · exact ⟨rfl, rfl, rfl, rfl⟩
  · show SameButFlags (match s.cfg.arithOvf with | .fault => _ | .wrap => _)
      (match s.cfg.arithOvf with | .fault => _ | .wrap => _)
    cases s.cfg.arithOvf <;> exact ⟨rfl, rfl, rfl, rfl⟩

theorem finishShift_sameButFlags (v : Int) (shift : Nat → Int) :
    SameButFlags (finishShift s v shift) (finishShift (s.withFlags h f) v shift) := by
  unfold finishShift
  split_ifs <;> exact ⟨rfl, rfl, rfl, rfl⟩

theorem branchIf_sameButFlags (cond : Bool) (v : Int) :
    SameButFlags (branchIf s cond v) (branchIf (s.withFlags h f) cond v) := by
  cases cond <;> exact ⟨rfl, rfl, rfl, rfl⟩

/-- `withOperand_related` for the flags: resolution reads neither, and a fault writes the same record
whatever they were. -/
theorem withOperand_withFlags (t : State) (mode : Mode) (val : Nat) (effect effect' : Int → State)
    (ht : withOperand s mode val (fun v => .next (effect v)) = .next t)
    (he : ∀ v, SameButFlags (effect v) (effect' v)) :
    ∃ u, withOperand (s.withFlags h f) mode val (fun v => .next (effect' v)) = .next u ∧ SameButFlags t u :=
  withOperand_related SameButFlags s (s.withFlags h f) t mode val effect effect' rfl rfl
    ht (fun _ => ⟨rfl, rfl, rfl, rfl⟩) he

end

/-- The execute phase under other flags answers the same state but for the flags. -/
theorem exec_withFlags (i : Instr) (s t : State) (h : Bool) (f : Option FaultRecord)
    (ht : exec i s = .next t) : ∃ u, exec i (s.withFlags h f) = .next u ∧ SameButFlags t u := by
  cases i with
  | str m n =>
    simp only [exec, execStr_eq] at ht ⊢
    exact withOperand_withFlags s h f t m n _ _ ht (fun v => finishStore_sameButFlags s h f _)
  | add m n | sub m n =>
    exact withOperand_withFlags s h f t m n _ _ ht (fun v => finishSum_sameButFlags s h f _ v)
  | lsl m n | lsr m n =>
    exact withOperand_withFlags s h f t m n _ _ ht (fun v => finishShift_sameButFlags s h f v _)
  | bze m n | bne m n | bpo m n | bnz m n =>
    exact withOperand_withFlags s h f t m n _ _ ht (fun v => branchIf_sameButFlags s h f _ v)
  | hlt m n | lda m n | and m n | orr m n | xor m n | not m n | jmp m n =>
    exact withOperand_withFlags s h f t m n _ _ ht (fun _ => ⟨rfl, rfl, rfl, rfl⟩)

/-- Settles O42: the execute phase under other flags, `exec_withFlags`. -/
theorem noInstructionReadsHaltedOrFault : Obligations.NoInstructionReadsHaltedOrFault :=
  exec_withFlags

/-! ## The accumulator -/

/-- An effect that neither reads nor writes `acc` makes an instruction that neither reads nor writes it. -/
theorem withOperand_withAcc (s t : State) (x : Int) (mode : Mode) (val : Nat) (effect effect' : Int → State)
    (ht : withOperand s mode val (fun v => .next (effect v)) = .next t)
    (he : ∀ v, (effect v).acc = s.acc ∧ effect' v = { effect v with acc := x }) :
    t.acc = s.acc ∧
      withOperand { s with acc := x } mode val (fun v => .next (effect' v)) = .next { t with acc := x } := by
  obtain ⟨u, hu, hacc, rfl⟩ :=
    withOperand_related (fun t u => t.acc = s.acc ∧ u = { t with acc := x }) s { s with acc := x } t mode val
      effect effect' rfl rfl ht (fun _ => ⟨rfl, rfl⟩) he
  exact ⟨hacc, hu⟩

theorem exec_lda_of_resolve_ok (s : State) (mode : Mode) (val : Nat) (v : Int)
    (h : resolve s mode val = .ok v) : exec (.lda mode val) s = .next { s with acc := v } :=
  withOperand_ok s mode val v _ h

/-- Settles O43: the effects of HLT and JMP do not mention `acc`, and that of LDA overwrites it. -/
theorem hltJmpAndLdaDoNotReadAcc : Obligations.HltJmpAndLdaDoNotReadAcc := by
  refine ⟨fun i s t x hi ht => ?_, fun s mode val v x hv => ?_⟩
  · cases i with
    | hlt m n | jmp m n => exact withOperand_withAcc s t x m n _ _ ht fun _ => ⟨rfl, rfl⟩
    | _ => simp [Instr.operation] at hi
  · have hv' : resolve { s with acc := x } mode val = .ok v := hv
    rw [exec_lda_of_resolve_ok s mode val v hv, exec_lda_of_resolve_ok _ mode val v hv']

end Sys2Proof.Machine
end

section
/-! PROOFS. The invariant: what it says of values read, how each update of the state keeps it, and that the
launch meets it and every step keeps it (10_state.md R20 to R28, R32). -/

namespace Sys2Proof.Machine

/-! ## Values of a state that meets the invariant -/

theorem isWord_zero (w : Nat) : isWord w 0 :=
  ⟨neg_nonpos.mpr (two_pow_pos _).le, two_pow_pos _⟩

theorem decode_val_lt (word : Int) (i : Instr) (h : decode word = some i) : i.val < 0x10000 := by
  unfold decode at h
  split at h
  case h_1 op m _ _ =>
    cases h
    rw [make_val]
    unfold valueField
    omega
  all_goals cases h

theorem isWord_of_inArray (s : State) (hs : s.cfg.Valid) (i : Int) (hi : s.inArray i) : isWord s.cfg.w i := by
  obtain ⟨-, -, hmem⟩ := hs
  obtain ⟨h0, h1⟩ := hi
  have := two_pow_pos (s.cfg.w - 1)
  exact ⟨by omega, by omega⟩

/-- `pc + 1` after a good fetch is a W-bit value, because `MEM_SIZE <= 2^(W-1) - 1` (10_state.md R27). -/
theorem isWord_succ_of_inArray (s : State) (hs : s.cfg.Valid) (i : Int) (hi : s.inArray i) :
    isWord s.cfg.w (i + 1) := by
  obtain ⟨-, -, hmem⟩ := hs
  obtain ⟨h0, h1⟩ := hi
  have := two_pow_pos (s.cfg.w - 1)
  exact ⟨by omega, by omega⟩

section
variable {s : State} {mode : Mode} {val : Nat} {v : Int} (hs : s.Inv) (hval : val < 0x10000)
include hs

theorem State.Inv.one_le_w : 1 ≤ s.cfg.w := le_trans (by decide) hs.cfgValid.1

theorem State.Inv.read_isWord (i : Nat) : isWord s.cfg.w (s.reg.read i) :=
  read_satisfies (isWord s.cfg.w) s.reg i (isWord_zero s.cfg.w) hs.regWords

theorem State.Inv.fetchWord_isWord {word : Int} (h : fetchWord s = some word) : isWord s.cfg.w word := by
  obtain ⟨-, rfl⟩ := (readCell_some s s.pc word).mp h
  exact hs.read_isWord _

include hval

/-- Every effective value is a W-bit value (10_state.md R27): the value field zero-extended, or a cell. -/
theorem State.Inv.resolve_isWord (h : resolve s mode val = .ok v) : isWord s.cfg.w v := by
  rw [resolve_ok] at h
  cases mode
  case immediate => exact h ▸ zextW_isWord s.cfg.w val hs.cfgValid.1 hval
  case direct =>
    obtain ⟨-, rfl⟩ := h
    exact hs.read_isWord _
  case indirect =>
    obtain ⟨-, -, rfl⟩ := h
    exact hs.read_isWord _

/-- The index that operand resolution faults on is the value field or a cell's value. -/
theorem State.Inv.resolve_error_isWord {r : Raised} (h : resolve s mode val = .error r) :
    isWord s.cfg.w r.info := by
  have hz := zextW_isWord s.cfg.w val hs.cfgValid.1 hval
  rw [resolve_error] at h
  cases mode
  case immediate => exact h.elim
  case direct =>
    obtain ⟨-, rfl⟩ := h
    exact hz
  case indirect =>
    obtain ⟨-, rfl⟩ | ⟨-, -, rfl⟩ := h
    · exact hz
    · exact hs.read_isWord _

theorem State.Inv.storeDest_isWord (hv : isWord s.cfg.w v) : isWord s.cfg.w (storeDest s mode val v) := by
  have hz := zextW_isWord s.cfg.w val hs.cfgValid.1 hval
  unfold storeDest
  cases s.cfg.strDest
  case effective => exact hv
  case literal => exact hz
  case location =>
    cases mode
    case immediate => exact hz
    case direct => exact hz
    case indirect => exact hs.read_isWord val

end

/-- Settles O41: the bound on MEM_SIZE, and the range of an effective value; `advance` changes `pc` alone, so
the operand resolves as before it. -/
theorem pcNeverWraps : Obligations.PcNeverWraps := by
  refine fun s hs => ⟨isWord_succ_of_inArray s hs.cfgValid s.pc, fun i v hi hv => ?_⟩
  obtain ⟨word, -, hd⟩ := hi
  rw [← resolve_congr s s.advance rfl rfl] at hv
  exact hs.resolve_isWord (decode_val_lt word i hd) hv

/-- Settles O12: the status by cases of the flag and the record; the invariant shuts out both at once. -/
theorem statusIsDerived : Obligations.StatusIsDerived := by
  intro s hs
  have hboth := hs.notBoth
  refine ⟨status_running s, ?_⟩
  unfold State.status
  cases hh : s.halted with
  | true => simp [hboth hh]
  | false => cases s.fault <;> simp

/-! ## Results of the ALU -/

theorem isWord_complement (w : Nat) (x : Int) (hx : isWord w x) : isWord w (-x - 1) := by
  obtain ⟨h1, h2⟩ := hx
  exact ⟨by omega, by omega⟩

theorem shiftLeftW_isWord (w : Nat) (h : 1 ≤ w) (x : Int) (n : Nat) : isWord w (shiftLeftW w x n) := by
  rw [shiftLeftW_eq]
  exact truncW_isWord w h _

theorem shiftRightW_isWord (w : Nat) (h : 1 ≤ w) (kind : LsrKind) (x : Int) (n : Nat) (hx : isWord w x) :
    isWord w (shiftRightW w kind x n) := by
  cases kind with
  | arithmetic =>
    rw [shiftRightW_arithmetic]
    exact shiftRight_isWord w x n hx
  | logical => exact truncW_isWord w h _

/-! ## Updates of the state -/

section
variable {s : State} (hs : s.Inv)
include hs

theorem State.Inv.withAcc {x : Int} (hx : isWord s.cfg.w x) : State.Inv { s with acc := x } :=
  { hs with accWord := hx }

theorem State.Inv.withPc {x : Int} (hf : s.fault = none) (hx : isWord s.cfg.w x) :
    State.Inv { s with pc := x } :=
  { hs with
    pcWord := hx
    faultAgrees := fun _ h => nomatch hf.symm.trans h }

theorem State.Inv.withHalted (hf : s.fault = none) : State.Inv { s with halted := true } :=
  { hs with notBoth := fun _ => hf }

theorem State.Inv.withCell {d x : Int} (hd : s.inArray d) (hx : isWord s.cfg.w x) :
    State.Inv { s with reg := s.reg.write d.toNat x } := by
  obtain ⟨h0, h1⟩ := hd
  refine { hs with
    regWf := wf_write s.reg hs.regWf d.toNat x
    regInArray := fun c hc => ?_
    regWords := fun c hc => ?_ }
  all_goals rcases mem_write_cases s.reg hs.regWf d.toNat x c hc with ⟨rfl, -⟩ | ⟨hm, -⟩
  · show d.toNat < s.cfg.memSize
    omega
  · exact hs.regInArray c hm
  · exact hx
  · exact hs.regWords c hm

/-- Taking a fault keeps the invariant where the record is one that 60_exceptions.md R191 allows. -/
theorem State.Inv.takeFault_inv {a : Int} {r : Raised} (hh : s.halted = false)
    (hpc : isWord s.cfg.w (r.cause.pcAfter a))
    (hr : FaultRecord.agrees (s.takeFault a r) ⟨r.cause, a, r.info⟩) : (s.takeFault a r).Inv :=
  { hs with
    pcWord := hpc
    notBoth := fun h => nomatch hh.symm.trans h
    faultAgrees := fun _ h => Option.some.inj h ▸ hr }

end

/-! ## The execute phase -/

/-- A good state of the execute phase: the machine runs, and the instruction at `instrAddr` was fetched. -/
structure State.InPhase (s : State) : Prop where
  inv : s.Inv
  running : s.status = .running
  fetched : s.inArray s.instrAddr

/-- The faults of the execute phase, each under its condition in the table of 60_exceptions.md R191. -/
inductive PhaseFault (s : State) : Raised → Prop where
  | operand (x : Int) (h : ¬ s.inArray x) : PhaseFault s ⟨.operandAddressFault, x⟩
  | store (x : Int) (h : ¬ s.inArray x) : PhaseFault s ⟨.storeAddressFault, x⟩
  | overflow (x : Int) (h : s.cfg.arithOvf = .fault) : PhaseFault s ⟨.arithmeticOverflow, x⟩
  | shiftAmount (x : Int) (h : x < 0) : PhaseFault s ⟨.shiftAmountFault, x⟩

theorem PhaseFault.ne_fetchFault {s : State} {r : Raised} (hr : PhaseFault s r) : r.cause ≠ .fetchFault := by
  cases hr <;> exact nofun

theorem phaseFault_of_resolve_error {s : State} {mode : Mode} {val : Nat} {r : Raised}
    (h : resolve s mode val = .error r) : PhaseFault s r := by
  obtain ⟨cause, info⟩ := r
  obtain ⟨rfl, hout⟩ := resolve_error_cause s mode val _ h
  exact .operand info hout

theorem State.Inv.advance_inPhase {s : State} (hs : s.Inv) (hr : s.status = .running)
    (hpc : s.inArray s.pc) : s.advance.InPhase where
  inv := hs.withPc ((status_running s).mp hr).2 (isWord_succ_of_inArray s hs.cfgValid s.pc hpc)
  running := hr
  fetched := (advance_instrAddr s).symm ▸ hpc

section
variable {s : State} (hs : s.InPhase)
include hs

theorem State.InPhase.halted_eq : s.halted = false := ((status_running s).mp hs.running).1

theorem State.InPhase.fault_eq : s.fault = none := ((status_running s).mp hs.running).2

theorem State.InPhase.raise_inv {r : Raised} (hr : PhaseFault s r) (hx : isWord s.cfg.w r.info) :
    (s.raise r).Inv := by
  have hpc : isWord s.cfg.w (s.raise r).pc := raise_pc s r hr.ne_fetchFault ▸ hs.inv.pcWord
  refine hs.inv.takeFault_inv hs.halted_eq hpc ⟨rfl, isWord_of_inArray s hs.inv.cfgValid _ hs.fetched, hx,
    iff_of_false hr.ne_fetchFault (not_not.mpr hs.fetched), ?_⟩
  cases hr with
  | operand x h => exact h
  | store x h => exact h
  | overflow x h => exact h
  | shiftAmount x h => exact h

theorem State.InPhase.finishSum_inv {r v : Int} (hv : isWord s.cfg.w v) : (finishSum s r v).Inv := by
  rcases finishSum_cases s r v with ⟨hr, h⟩ | ⟨-, ho, h⟩ | ⟨-, -, h⟩ <;> rw [h]
  · exact hs.inv.withAcc hr
  · exact hs.raise_inv (.overflow v ho) hv
  · exact hs.inv.withAcc (truncW_isWord s.cfg.w hs.inv.one_le_w r)

theorem State.InPhase.finishShift_inv {v : Int} {shift : Nat → Int} (hv : isWord s.cfg.w v)
    (hshift : ∀ n, isWord s.cfg.w (shift n)) : (finishShift s v shift).Inv := by
  rcases finishShift_cases s v shift with ⟨hneg, h⟩ | ⟨-, h⟩ <;> rw [h]
  · exact hs.raise_inv (.shiftAmount v hneg) hv
  · exact hs.inv.withAcc (hshift _)

theorem State.InPhase.branchIf_inv {v : Int} (cond : Bool) (hv : isWord s.cfg.w v) :
    (branchIf s cond v).Inv := by
  cases cond with
  | true => exact hs.inv.withPc hs.fault_eq hv
  | false => exact hs.inv

theorem State.InPhase.effect_inv {i : Instr} {t : State} {v : Int} (hval : i.val < 0x10000)
    (hv : isWord s.cfg.w v) (he : Effect i s v t) : t.Inv := by
  cases he with
  | halts => exact hs.inv.withHalted hs.fault_eq
  | loads => exact hs.inv.withAcc hv
  | stores _ hd => exact hs.inv.withCell hd hs.inv.accWord
  | storeFaults _ hd => exact hs.raise_inv (.store _ hd) (hs.inv.storeDest_isWord hval hv)
  | sums => exact hs.finishSum_inv hv
  | combines => exact hs.inv.withAcc (truncW_isWord s.cfg.w hs.inv.one_le_w _)
  | complements => exact hs.inv.withAcc (isWord_complement s.cfg.w s.acc hs.inv.accWord)
  | shifts _ h =>
    refine hs.finishShift_inv hv fun n => ?_
    obtain ⟨-, rfl⟩ | ⟨-, rfl⟩ := h
    · exact shiftLeftW_isWord s.cfg.w hs.inv.one_le_w s.acc n
    · exact shiftRightW_isWord s.cfg.w hs.inv.one_le_w _ s.acc n hs.inv.accWord
  | branches cond => exact hs.branchIf_inv cond hv
  | jumps => exact hs.inv.withPc hs.fault_eq hv

theorem State.InPhase.exec_inv {i : Instr} {t : State} (hval : i.val < 0x10000) (ht : exec i s = .next t) :
    t.Inv := by
  rcases exec_cases i s t ht with ⟨r, hr, rfl⟩ | ⟨v, hv, he⟩
  · exact hs.raise_inv (phaseFault_of_resolve_error hr) (hs.inv.resolve_error_isWord hval hr)
  · exact hs.effect_inv hval (hs.inv.resolve_isWord hval hv) he

end

/-! ## The step and the launch -/

section
variable {s : State} (hs : s.Inv) (hr : s.status = .running)
include hs hr

theorem State.Inv.fetchFault_inv (hpc : ¬ s.inArray s.pc) : (s.takeFault s.pc ⟨.fetchFault, s.pc⟩).Inv :=
  hs.takeFault_inv ((status_running s).mp hr).1 hs.pcWord ⟨rfl, hs.pcWord, hs.pcWord, iff_of_true rfl hpc, rfl⟩

theorem State.Inv.decodeFault_inv {word : Int} (hf : fetchWord s = some word) (hd : decode word = none) :
    (s.takeFault s.pc ⟨.decodeFault, word⟩).Inv := by
  obtain ⟨hpc, -⟩ := (readCell_some s s.pc word).mp hf
  exact hs.takeFault_inv ((status_running s).mp hr).1 (isWord_succ_of_inArray s hs.cfgValid s.pc hpc)
    ⟨rfl, hs.pcWord, hs.fetchWord_isWord hf, iff_of_false nofun (not_not.mpr hpc), hd⟩

end

/-- Settles O45: the two faults before the execute phase, and the execute phase of the advanced state, in which
every update is by W-bit values. -/
theorem stepKeepsInvariant : Obligations.StepKeepsInvariant := by
  intro s t hs h
  obtain ⟨hr, ⟨hpc, rfl⟩ | ⟨word, hf, hd, rfl⟩ | ⟨word, i, hf, hd, he⟩⟩ := step_cases s t h
  · exact hs.fetchFault_inv hr hpc
  · exact hs.decodeFault_inv hr hf hd
  · obtain ⟨hpc, -⟩ := (readCell_some s s.pc word).mp hf
    exact (hs.advance_inPhase hr hpc).exec_inv (decode_val_lt word i hd) he

theorem resetState_inv (c : Config) (program seed : List Int) (h : validLaunch c program seed) :
    (resetState c program seed).Inv := by
  obtain ⟨hc, hfit, hprogram, hseed⟩ := h
  have hcell := mem_ofWords 0 (program ++ seed)
  refine ⟨hc, wf_ofWords 0 _, fun cell hm => ?_, fun cell hm => ?_, isWord_zero c.w, isWord_zero c.w, nofun,
    nofun⟩
  · obtain ⟨-, hlt, -⟩ := hcell cell hm
    rw [List.length_append] at hlt
    show cell.1 < c.memSize
    omega
  · obtain ⟨-, -, hword⟩ := hcell cell hm
    exact (List.mem_append.mp hword).elim (hprogram _) (hseed _)

theorem validLaunch_default : validLaunch Config.default [] [] := by decide

/-- Settles O46: the reset state is that of the empty launch under the default parameters. -/
theorem resetMeetsInvariant : Obligations.ResetMeetsInvariant :=
  resetState_inv Config.default [] [] validLaunch_default

theorem readCell_resetState (c : Config) (program seed : List Int) (i : Nat) (hi : i < c.memSize) :
    (resetState c program seed).readCell i = some (((program ++ seed)[i]?).getD 0) := by
  rw [readCell_some]
  refine ⟨⟨Int.natCast_nonneg i, Int.ofNat_lt.mpr hi⟩, ?_⟩
  have h := read_ofWords 0 i (program ++ seed)
  rwa [Nat.zero_add] at h

/-- Settles O48: cell `i` holds word `i` of the program followed by the seed, and 0 beyond both. -/
theorem launchGivesResetState : Obligations.LaunchGivesResetState := by
  intro c program seed h
  have hread := readCell_resetState c program seed
  have hlaunch := (launch_next c program seed _).mpr ⟨h, rfl⟩
  obtain ⟨-, hfit, -, -⟩ := h
  refine ⟨_, hlaunch, rfl, rfl, rfl, rfl, rfl, fun k hk => ?_, fun k hk => ?_, fun i hi hm => ?_⟩
  · rw [hread k (by omega), List.getElem?_append_left hk, List.getElem?_eq_getElem hk, Option.getD_some]
  · rw [hread _ (by omega), List.getElem?_append_right (by omega), Nat.add_sub_cancel_left,
      List.getElem?_eq_getElem hk, Option.getD_some]
  · rw [hread i hm, List.getElem?_eq_none (by rw [List.length_append]; omega), Option.getD_none]

/-- Settles O50: the empty launch under the default parameters is valid, and none of its cells is loaded. -/
theorem resetIsTheEmptyDefaultLaunch : Obligations.ResetIsTheEmptyDefaultLaunch :=
  ⟨(launch_next _ _ _ _).mpr ⟨validLaunch_default, rfl⟩, rfl, rfl, rfl, rfl, rfl,
    readCell_resetState Config.default [] []⟩

end Sys2Proof.Machine
end

section
/-! PROOFS. The accesses to the register array (20_memory.md R41, R48, R53): what an access outside the array
raises, and that a store is the one thing that changes a cell. -/

namespace Sys2Proof.Machine

/-! ## Accesses outside the array -/

theorem step_of_pc_outside (s : State) (hr : s.status = .running) (hpc : ¬ s.inArray s.pc) :
    step s = .next (s.takeFault s.pc ⟨.fetchFault, s.pc⟩) := by
  have hfetch : fetchWord s = none := (readCell_none s s.pc).mpr hpc
  simp only [step_running s hr, cycle, hfetch]

theorem resolve_of_val_outside (s : State) (mode : Mode) (val : Nat) (hm : mode ≠ .immediate)
    (hval : ¬ s.inArray val) : resolve s mode val = .error ⟨.operandAddressFault, val⟩ := by
  rw [resolve_error]
  cases mode with
  | immediate => exact absurd rfl hm
  | direct => exact ⟨hval, rfl⟩
  | indirect => exact Or.inl ⟨hval, rfl⟩

theorem resolve_of_pointer_outside (s : State) (val : Nat) (hval : s.inArray val)
    (hp : ¬ s.inArray (s.reg.read val)) :
    resolve s .indirect val = .error ⟨.operandAddressFault, s.reg.read val⟩ :=
  (resolve_error s .indirect val _).mpr (Or.inr ⟨hval, hp, rfl⟩)

/-- An unreadable operand stops every instruction before its own effect (40_execution_cycle.md R105). -/
theorem exec_of_resolve_error (i : Instr) (s : State) (r : Raised) (h : resolve s i.mode i.val = .error r) :
    exec i s = .next { s with fault := some ⟨r.cause, s.pc - 1, r.info⟩ } := by
  obtain ⟨hcause, -⟩ := resolve_error_cause s i.mode i.val r h
  rw [← raise_eq s r (by simp [hcause])]
  cases i <;> exact withOperand_error s _ _ r _ h

theorem exec_str_of_resolve_ok (s : State) (mode : Mode) (val : Nat) (v : Int)
    (h : resolve s mode val = .ok v) :
    exec (.str mode val) s = .next (finishStore s (storeDest s mode val v)) :=
  (execStr_eq mode val s).trans (withOperand_ok s mode val v _ h)

theorem finishStore_of_inArray (s : State) (d : Int) (hd : s.inArray d) :
    finishStore s d = { s with reg := s.reg.write d.toNat s.acc } :=
  if_pos hd

theorem finishStore_of_not_inArray (s : State) (d : Int) (hd : ¬ s.inArray d) :
    finishStore s d = { s with fault := some ⟨.storeAddressFault, s.pc - 1, d⟩ } :=
  (if_neg hd).trans (raise_eq s _ nofun)

/-- Settles O14: the fetch, the two levels of the operand, and the store, each by what it answers for an index
outside the array. -/
theorem outOfRangeAccessFaults : Obligations.OutOfRangeAccessFaults := by
  refine ⟨step_of_pc_outside, fun i s hm hval => ?_, fun i s hm hval hp => ?_, fun s mode val v hv hd => ?_⟩
  · exact exec_of_resolve_error i s _ (resolve_of_val_outside s i.mode i.val hm hval)
  · exact exec_of_resolve_error i s _ (hm ▸ resolve_of_pointer_outside s i.val hval hp)
  · rw [exec_str_of_resolve_ok s mode val v hv, finishStore_of_not_inArray s _ hd]

/-! ## Stores -/

theorem step_of_fetches (s : State) (i : Instr) (hr : s.status = .running) (hi : fetches s i) :
    step s = exec i s.advance := by
  obtain ⟨word, hf, hd⟩ := hi
  simp only [step_running s hr, cycle, hf, runWord, hd]

theorem step_of_storesTo (s : State) (d : Int) (h : storesTo s d) :
    step s = .next (finishStore s.advance d) := by
  obtain ⟨mode, val, v, hr, hi, hv, rfl⟩ := h
  rw [step_of_fetches s _ hr hi, exec_str_of_resolve_ok s.advance mode val v hv]

theorem make_fields (i : Instr) : Instr.make i.operation i.mode i.val = i := by
  cases i <;> rfl

/-- Everything an effect can do to the register array: nothing, or the write of STR (20_memory.md R48). -/
theorem Effect.reg_cases {i : Instr} {s t : State} {v : Int} (h : Effect i s v t) :
    t.reg = s.reg ∨ i.operation = .str ∧
      t.reg = s.reg.write (storeDest s i.mode i.val v).toNat s.acc ∧ s.inArray (storeDest s i.mode i.val v) := by
  cases h with
  | stores hi hd => exact Or.inr ⟨hi, rfl, hd⟩
  | _ => exact Or.inl (by simp)

/-- Everything a step can do to the register array: nothing, or the write of `acc` to the cell of an STR. -/
theorem step_reg_cases (s t : State) (h : step s = .next t) :
    t.reg = s.reg ∨ ∃ d, storesTo s d ∧ s.inArray d ∧ t.reg = s.reg.write d.toNat s.acc := by
  obtain ⟨hr, ⟨-, rfl⟩ | ⟨word, -, -, rfl⟩ | ⟨word, i, hf, hd, he⟩⟩ := step_cases s t h
  · exact Or.inl rfl
  · exact Or.inl rfl
  · rcases exec_cases i s.advance t he with ⟨r, -, rfl⟩ | ⟨v, hv, heff⟩
    · exact Or.inl rfl
    · rcases heff.reg_cases with hreg | ⟨hi, hreg, hin⟩
      · exact Or.inl hreg
      · have hmake := make_fields i
        rw [hi] at hmake
        have hstr : fetches s (.str i.mode i.val) := ⟨word, hf, hd.trans (congrArg some hmake.symm)⟩
        exact Or.inr ⟨_, ⟨i.mode, i.val, v, hr, hstr, hv, rfl⟩, hin, hreg⟩

theorem step_wf (s t : State) (hs : Memory.wf s.reg) (h : step s = .next t) : Memory.wf t.reg := by
  rcases step_reg_cases s t h with hreg | ⟨d, -, -, hreg⟩ <;> rw [hreg]
  · exact hs
  · exact wf_write s.reg hs d.toNat s.acc

/-- A step that is no STR to the cell `d` leaves that cell as it is. -/
theorem step_read_of_not_storesTo (s t : State) (d : Nat) (hs : Memory.wf s.reg) (h : step s = .next t)
    (hd : ¬ storesTo s d) : t.reg.read d = s.reg.read d := by
  rcases step_reg_cases s t h with hreg | ⟨e, he, hin, hreg⟩ <;> rw [hreg]
  have hne : d ≠ e.toNat := by
    rintro rfl
    rw [Int.toNat_of_nonneg hin.1] at hd
    exact hd he
  rw [read_write s.reg hs, if_neg hne]

theorem run_succ_of_step (n : Nat) (s t : State) (h : step s = .next t) : run (n + 1) s = run n t := by
  simp only [run, h]

/-- Along a run in which no step is an STR to the cell `d`, that cell reads as at the start. -/
theorem run_read_of_not_storesTo (s : State) (d n : Nat) (hs : Memory.wf s.reg)
    (hd : ∀ k < n, ¬ storesTo (run k s) d) : (run n s).reg.read d = s.reg.read d := by
  induction n generalizing s with
  | zero => rfl
  | succ n ih =>
    cases h : step s with
    | next t =>
      have hlater : ∀ k < n, ¬ storesTo (run k t) d := fun k hk =>
        run_succ_of_step k s t h ▸ hd (k + 1) (by omega)
      calc (run (n + 1) s).reg.read d
          = (run n t).reg.read d := by rw [run_succ_of_step n s t h]
        _ = t.reg.read d := ih t (step_wf s t hs h) hlater
        _ = s.reg.read d := step_read_of_not_storesTo s t d hs h (hd 0 (by omega))
    | fault r => simp only [run, h]
    | refused r => simp only [run, h]

/-- Settles O44: a store is read back by `read_write`, and an STR is all that changes a cell. -/
theorem cellsHoldTheirMostRecentStore : Obligations.CellsHoldTheirMostRecentStore := by
  refine ⟨fun s hs d hd h => ⟨_, step_of_storesTo s d h, ?_⟩, run_read_of_not_storesTo, fun s hpc => if_pos hpc⟩
  rw [finishStore_of_inArray s.advance d hd]
  exact (read_write s.reg hs d.toNat d.toNat s.acc).trans (if_pos rfl)

end Sys2Proof.Machine
end

section
/-! PROOFS. The codec (30_encoding.md sections 1 and 2): decode and encode are inverse to each other, the words
that decode accepts, what a fetched illegal word and the fetched zero word do, and where the next instruction
is. -/

namespace Sys2Proof.Machine

/-! ## The decoder and the encoder -/

/-- The word of three fields, each below its bound, is the word that the extraction of R62 splits into them. -/
theorem word_eq_iff_fields (op m val word : Int) (hm : 0 ≤ m ∧ m < 3) (hval : 0 ≤ val ∧ val < 65536) :
    word = op * 262144 + m * 65536 + val ↔
      opcodeField word = op ∧ modeField word = m ∧ valueField word = val := by
  unfold opcodeField modeField valueField
  omega

/-- What decode accepts: the words whose three fields are an operation's code, a mode's code and the value. -/
theorem decode_eq_some_iff (word : Int) (i : Instr) :
    decode word = some i ↔ opcodeField word = i.operation.code ∧ modeField word = i.mode.code ∧
      valueField word = i.val := by
  have hval : 0 ≤ valueField word := by unfold valueField; omega
  constructor
  · intro h
    unfold decode at h
    split at h
    case h_1 op m hop hm =>
      cases h
      rw [make_operation, make_mode, make_val, Int.toNat_of_nonneg hval]
      exact ⟨(operation_ofCode_iff _ op).mp hop, (mode_ofCode_iff _ m).mp hm, rfl⟩
    all_goals cases h
  · rintro ⟨hop, hm, hv⟩
    simp only [decode, hop, hm, hv, operation_ofCode_code, mode_ofCode_code, Int.toNat_natCast, make_fields]

theorem encode_eq_some_iff (i : Instr) (word : Int) :
    encode i = some word ↔ i.val < 0x10000 ∧
      word = (i.operation.code : Int) * 262144 + (i.mode.code : Int) * 65536 + i.val := by
  unfold encode
  rw [encodeFields_some]
  omega

/-- Decode and encode are the two directions of one relation (30_encoding.md R65). -/
theorem decode_iff_encode (word : Int) (i : Instr) : decode word = some i ↔ encode i = some word := by
  have hm := mode_code_lt i.mode
  rw [encode_eq_some_iff]
  constructor
  · intro h
    have hval := decode_val_lt word i h
    exact ⟨hval, (word_eq_iff_fields _ _ _ _ (by omega) (by omega)).mpr ((decode_eq_some_iff word i).mp h)⟩
  · rintro ⟨hval, hword⟩
    exact (decode_eq_some_iff word i).mpr ((word_eq_iff_fields _ _ _ _ (by omega) (by omega)).mp hword)

/-- Settles O1: every well-formed instruction has a word, and `decode_iff_encode` in both directions. -/
theorem encodeDecodeRoundTrip : Obligations.EncodeDecodeRoundTrip := by
  refine ⟨fun op m v hv => ?_, fun word i => (decode_iff_encode word i).mp⟩
  have henc := (encode_eq_some_iff (Instr.make op m v) _).mpr ⟨(make_val op m v).symm ▸ hv, rfl⟩
  exact ⟨_, henc, (decode_iff_encode _ _).mpr henc⟩

/-- Settles O4: the encoder's range is that of `encodeFields_some`. -/
theorem encoderRejectsUnencodableValues : Obligations.EncoderRejectsUnencodableValues := by
  refine fun op m val => ⟨fun h => (encodeFields_some op m val _).mpr ⟨h.1, h.2, rfl⟩, fun h => ?_⟩
  rw [Option.eq_none_iff_forall_ne_some]
  intro word hword
  obtain ⟨h0, h1, -⟩ := (encodeFields_some op m val word).mp hword
  exact h ⟨h0, h1⟩

/-! ## The legal and the illegal words -/

theorem operation_ofCode_none (c : Int) : Operation.ofCode c = none ↔ c < 0 ∨ 15 < c := by
  constructor
  · intro h
    by_contra hc
    have hrange : 0 ≤ c ∧ c ≤ 15 := by omega
    obtain ⟨h0, h15⟩ := hrange
    interval_cases c <;> cases h
  · intro h
    rw [Option.eq_none_iff_forall_ne_some]
    intro op hop
    have hc := (operation_ofCode_iff c op).mp hop
    have := operation_code_lt op
    omega

theorem mode_ofCode_none (c : Int) : Mode.ofCode c = none ↔ c < 0 ∨ 2 < c := by
  constructor
  · intro h
    by_contra hc
    have hrange : 0 ≤ c ∧ c ≤ 2 := by omega
    obtain ⟨h0, h2⟩ := hrange
    interval_cases c <;> cases h
  · intro h
    rw [Option.eq_none_iff_forall_ne_some]
    intro m hm
    have hc := (mode_ofCode_iff c m).mp hm
    have := mode_code_lt m
    omega

/-- The words that decode rejects, by their two coded fields (30_encoding.md R63). -/
theorem decode_eq_none_iff (word : Int) :
    decode word = none ↔ ¬ (0 ≤ opcodeField word ∧ opcodeField word ≤ 15 ∧ modeField word ≠ 3) := by
  have hmode : 0 ≤ modeField word ∧ modeField word ≤ 3 := by unfold modeField; omega
  have hop := operation_ofCode_none (opcodeField word)
  have hm := mode_ofCode_none (modeField word)
  unfold decode
  cases ho : Operation.ofCode (opcodeField word) with
  | none =>
    have := hop.mp ho
    exact iff_of_true rfl (by omega)
  | some op =>
    rw [ho] at hop
    cases hc : Mode.ofCode (modeField word) with
    | none =>
      have := hm.mp hc
      exact iff_of_true rfl (by omega)
    | some m =>
      rw [hc] at hm
      simp only [reduceCtorEq, false_iff] at hop hm ⊢
      omega

theorem decode_isSome_iff (word : Int) :
    (decode word).isSome ↔ 0 ≤ opcodeField word ∧ opcodeField word ≤ 15 ∧ modeField word ≠ 3 := by
  rw [Option.isSome_iff_ne_none, ne_eq, decode_eq_none_iff, not_not]

/-- A running machine that fetches an illegal word records DecodeFault with that word, the increment of `pc`
done (40_execution_cycle.md R104). -/
theorem step_of_decode_none (s : State) (word : Int) (hr : s.status = .running) (hf : fetchWord s = some word)
    (hd : decode word = none) :
    step s = .next { s with pc := s.pc + 1, fault := some ⟨.decodeFault, s.pc, word⟩ } := by
  simp only [step_running s hr, cycle, hf, runWord, hd]
  rfl

/-- Settles O2: `decode_eq_some_iff`, whose codes lie within the stated bounds, and `step_of_decode_none`. -/
theorem decodeAcceptsExactlyTheKnownFields : Obligations.DecodeAcceptsExactlyTheKnownFields := by
  refine ⟨fun word i => ?_, fun word => by omega, fun s word hr hf h => ?_⟩
  · have hop := operation_code_lt i.operation
    have hm := mode_code_lt i.mode
    rw [decode_eq_some_iff]
    unfold opcodeField modeField valueField
    omega
  · exact step_of_decode_none s word hr hf ((decode_eq_none_iff word).mpr h)

/-- The numbers below `2^22` that decode, by their fields: 16 operations, 3 modes and 65536 values. -/
theorem decode_isSome_iff_fields (n : Nat) :
    (n < 2 ^ 22 ∧ (decode (n : Int)).isSome) ↔
      ∃ op m val, (op < 16 ∧ m < 3 ∧ val < 65536) ∧ op * 262144 + m * 65536 + val = n := by
  rw [decode_isSome_iff]
  unfold opcodeField modeField
  constructor
  · rintro ⟨-, h⟩
    exact ⟨n / 262144, n % 262144 / 65536, n % 65536, by omega, by omega⟩
  · rintro ⟨op, m, val, h, rfl⟩
    omega

theorem card_decode_isSome :
    ((Finset.range (2 ^ 22)).filter fun n : Nat => (decode (n : Int)).isSome).card = 3145728 := by
  rw [card_of_fields _ 16 3 65536 _ (by norm_num) (by norm_num) decode_isSome_iff_fields]

theorem card_decode_isSome_add_isNone (n : Nat) :
    ((Finset.range n).filter fun k : Nat => (decode (k : Int)).isSome).card +
      ((Finset.range n).filter fun k : Nat => (decode (k : Int)).isNone).card = n := by
  have h := Finset.card_filter_add_card_filter_not (s := Finset.range n) fun k : Nat => (decode (k : Int)).isSome
  simpa using h

/-- The illegal words of 22 bits are the rest of the `2^22`. -/
theorem card_decode_isNone :
    ((Finset.range (2 ^ 22)).filter fun n : Nat => (decode (n : Int)).isNone).card = 1048576 := by
  have hsum := card_decode_isSome_add_isNone (2 ^ 22)
  rw [card_decode_isSome] at hsum
  omega

/-- Settles O3: the rejected fields as intervals of words, the count of the accepted fields, and the step. -/
theorem illegalWordsRaiseDecodeFault : Obligations.IllegalWordsRaiseDecodeFault := by
  refine ⟨fun word => ?_, card_decode_isSome, card_decode_isNone, step_of_decode_none⟩
  rw [decode_eq_none_iff]
  unfold opcodeField modeField
  constructor
  · intro h
    by_cases hrange : 0 ≤ word ∧ word < 2 ^ 22
    · exact Or.inr (Or.inr ⟨(word / 262144).toNat, by omega, by omega, by omega⟩)
    · omega
  · rintro (h | h | ⟨op, hop, hlo, hhi⟩) <;> omega

/-! ## The maps of operations and modes -/

theorem operationOf_mnemonic (op : Operation) : operationOf (mnemonic op) = some op := by
  cases op <;> rfl

/-- Settles O5: the codes by `operation_ofCode_iff`; the mnemonics are injective because `operationOf` reads
them back. -/
theorem opcodeMapIsTheListedOrder : Obligations.OpcodeMapIsTheListedOrder := by
  refine ⟨rfl, operation_ofCode_iff, operation_ofCode_none, operationOf_mnemonic, fun op op' h => ?_⟩
  have hread := operationOf_mnemonic op
  rw [h, operationOf_mnemonic] at hread
  exact (Option.some.inj hread).symm

/-- Settles O6: the maps by their definitions, the effective values by `resolve_ok`. -/
theorem modeMapIsTheListedOrder : Obligations.ModeMapIsTheListedOrder := by
  refine ⟨rfl, rfl, rfl, rfl, rfl, rfl, rfl, rfl, rfl, rfl, rfl, rfl, rfl, rfl, rfl, rfl, fun s val => ?_⟩
  have hin (h : val < s.cfg.memSize) : s.inArray val := ⟨Int.natCast_nonneg val, Int.ofNat_lt.mpr h⟩
  exact ⟨rfl, fun h => (resolve_ok s .direct val _).mpr ⟨hin h, rfl⟩,
    fun h hp => (resolve_ok s .indirect val _).mpr ⟨hin h, hp, rfl⟩⟩

/-! ## The zero word, and the next instruction -/

theorem exec_hlt_of_resolve_ok (s : State) (mode : Mode) (val : Nat) (v : Int)
    (h : resolve s mode val = .ok v) : exec (.hlt mode val) s = .next { s with halted := true } :=
  withOperand_ok s mode val v _ h

theorem decode_zero : decode 0 = some (.hlt .immediate 0) := rfl

/-- Settles O8: `HLT #0` needs no cell for its operand, and a launch leaves 0 beyond the program and the seed. -/
theorem zeroWordHalts : Obligations.ZeroWordHalts := by
  refine ⟨decode_zero, fun s hr hf => ?_, fun c program seed s i h hi hm => ?_⟩
  · rw [step_of_fetches s (.hlt .immediate 0) hr ⟨0, hf, decode_zero⟩]
    exact exec_hlt_of_resolve_ok s.advance .immediate 0 0 rfl
  · obtain ⟨-, rfl⟩ := (launch_next c program seed s).mp h
    rw [readCell_resetState c program seed i hm, List.getElem?_eq_none (by rwa [List.length_append]),
      Option.getD_none]

theorem finishSum_pc (s : State) (r v : Int) : (finishSum s r v).pc = s.pc := by
  rcases finishSum_cases s r v with ⟨-, h⟩ | ⟨-, -, h⟩ | ⟨-, -, h⟩ <;> rw [h]
  exact raise_pc s _ nofun

theorem finishShift_pc (s : State) (v : Int) (shift : Nat → Int) : (finishShift s v shift).pc = s.pc := by
  rcases finishShift_cases s v shift with ⟨-, h⟩ | ⟨-, h⟩ <;> rw [h]
  exact raise_pc s _ nofun

/-- Everything an effect can do to `pc`: nothing, or the transfer of a branch or jump to the effective value. -/
theorem Effect.pc_cases {i : Instr} {s t : State} {v : Int} (h : Effect i s v t) :
    t.pc = s.pc ∨ i.operation ∈ [Operation.bze, .bne, .bpo, .bnz, .jmp] ∧ t.pc = v := by
  cases h with
  | storeFaults => exact Or.inl (raise_pc s _ nofun)
  | sums r => exact Or.inl (finishSum_pc s r v)
  | shifts shift => exact Or.inl (finishShift_pc s v shift)
  | branches cond hi =>
    cases cond with
    | true => exact Or.inr ⟨by simp only [List.mem_cons]; tauto, rfl⟩
    | false => exact Or.inl rfl
  | jumps hi => exact Or.inr ⟨by simp [hi], rfl⟩
  | halts | loads | stores | combines | complements => exact Or.inl rfl

/-- Settles O39: the execute phase begins at `pc + 1`, and an effect moves `pc` only as `Effect.pc_cases` says. -/
theorem nextInstructionFollowsUnlessTransferred : Obligations.NextInstructionFollowsUnlessTransferred := by
  intro s t i hr hi h
  rw [step_of_fetches s i hr hi] at h
  rcases exec_cases i s.advance t h with ⟨r, hv, rfl⟩ | ⟨v, hv, he⟩
  · obtain ⟨hcause, -⟩ := resolve_error_cause s.advance i.mode i.val r hv
    exact Or.inl (raise_pc s.advance r (by simp [hcause]))
  · rcases he.pc_cases with hpc | ⟨hop, rfl⟩
    · exact Or.inl hpc
    · exact Or.inr ⟨hop, (resolve_congr s s.advance rfl rfl i.mode i.val).trans hv⟩

end Sys2Proof.Machine
end

section
/-! PROOFS. The assembler (30_encoding.md R75 to R86): the words it emits, the addresses of the variables, and
the assembly of the canonical spelling. -/

namespace Sys2Proof.Machine

/-! ## The emitted words -/

theorem emitWord_ok_iff_decode (op : Operation) (m : Mode) (val : Nat) (word : Int) :
    emitWord op m val = .ok word ↔ decode word = some (Instr.make op m val) := by
  rw [emitWord_ok, decode_iff_encode, encode, make_operation, make_mode, make_val]

theorem emitInstruction_decodes (labels vars : NameTable) (t : Text) (word : Int)
    (h : emitInstruction labels vars t = .ok word) : ∃ i, decode word = some i := by
  unfold emitInstruction at h
  split at h
  · split at h
    · exact ⟨_, (emitWord_ok_iff_decode _ _ _ word).mp h⟩
    · cases h
  · split at h
    · cases h
    · split at h
      · cases h
      · exact ⟨_, (emitWord_ok_iff_decode _ _ _ word).mp h⟩
  · cases h

/-- What the emission of a counted line needs: its label, its instruction and the lines after it. -/
theorem emitPass_counted_ok (labels vars : NameTable) (t : Text) (rest : List Line) (words : List Int) :
    emitPass labels vars (.counted t :: rest) = .ok words ↔
      ∃ label body word later, splitLabel t = .ok (label, body) ∧
        emitInstruction labels vars body = .ok word ∧ emitPass labels vars rest = .ok later ∧
        words = word :: later := by
  rw [emitPass]
  cases splitLabel t with
  | error e => simp
  | ok p =>
    obtain ⟨label, body⟩ := p
    cases hw : emitInstruction labels vars body with
    | error e => simp [hw]
    | ok word => cases emitPass labels vars rest <;> simp [hw, Except.map, eq_comm]

theorem emitPass_decodes (labels vars : NameTable) (ls : List Line) (words : List Int)
    (h : emitPass labels vars ls = .ok words) :
    words.length = countedLines ls ∧ ∀ word ∈ words, ∃ i, decode word = some i := by
  induction ls generalizing words with
  | nil =>
    cases h
    exact ⟨rfl, nofun⟩
  | cons l rest ih =>
    cases l with
    | blank | definition d => exact ih words h
    | counted t =>
      obtain ⟨label, body, word, later, -, hword, hlater, rfl⟩ :=
        (emitPass_counted_ok labels vars t rest words).mp h
      obtain ⟨hlen, hdec⟩ := ih later hlater
      exact ⟨congrArg (· + 1) hlen,
        List.forall_mem_cons.mpr ⟨emitInstruction_decodes labels vars body word hword, hdec⟩⟩

/-- The assembler's answer is that of the emission, under the tables of the two passes before it. -/
theorem assemble_ok (t : Text) (words : List Int) :
    assemble t = .ok words ↔ ∃ labels vars, labelPass 0 [] (sourceLines t) = .ok labels ∧
      variablePass (countedLines (sourceLines t)) [] (sourceLines t) = .ok vars ∧
      emitPass labels vars (sourceLines t) = .ok words := by
  unfold assemble
  cases labelPass 0 [] (sourceLines t) with
  | error e => simp
  | ok labels =>
    cases variablePass (countedLines (sourceLines t)) [] (sourceLines t) with
    | error e => simp
    | ok vars => simp

/-- Settles O54: the last pass emits one word for each counted line, and only words of the encoder. -/
theorem assembledWordsAllDecode : Obligations.AssembledWordsAllDecode := by
  intro t words h
  obtain ⟨labels, vars, -, -, hemit⟩ := (assemble_ok t words).mp h
  exact emitPass_decodes labels vars (sourceLines t) words hemit

/-! ## The canonical spelling -/

theorem mnemonic_cons (op : Operation) : ∃ c rest, mnemonic op = c :: rest ∧ c ≠ '$' ∧ c ≠ '@' := by
  cases op <;> exact ⟨_, _, rfl, by decide, by decide⟩

/-- The operand of the canonical spelling: the mode mark and the value in decimal (30_encoding.md R86). -/
def spelledOperand (m : Mode) (val : Nat) : Text :=
  modeMark m ++ Nat.toDigits 10 val

theorem spell_eq (i : Instr) : spell i = mnemonic i.operation ++ ' ' :: spelledOperand i.mode i.val := rfl

theorem spelledOperand_no_space (m : Mode) (val : Nat) (c : Char) (h : c ∈ spelledOperand m val) :
    isSpace c = false := by
  rcases List.mem_append.mp h with h | h
  · exact modeMark_no_space m c h
  · exact (digit_is_decimal c (Nat.isDigit_of_mem_toDigits (by omega) (by omega) h)).1

theorem spelledOperand_ne_nil (m : Mode) (val : Nat) : spelledOperand m val ≠ [] :=
  List.append_ne_nil_of_right_ne_nil _ Nat.toDigits_ne_nil

theorem tokens_spell (i : Instr) : tokens (spell i) = [mnemonic i.operation, spelledOperand i.mode i.val] := by
  obtain ⟨c, rest, hc, -⟩ := mnemonic_cons i.operation
  rw [tokens, spell_eq, splitWhere_one isSpace _ _ ' ' (mnemonic_no_space _) rfl (spelledOperand_no_space _ _)]
  simp [hc, spelledOperand_ne_nil]

theorem trim_spell (i : Instr) : trim (spell i) = spell i := by
  obtain ⟨c, rest, hc, -⟩ := mnemonic_cons i.operation
  have hhead := mnemonic_no_space i.operation c (hc ▸ List.mem_cons_self)
  have hlast := spelledOperand_no_space i.mode i.val _ (List.getLast_mem (spelledOperand_ne_nil i.mode i.val))
  refine trim_of_ends (spell i) (by simp [spell_eq]) ?_ ?_
  · simpa [spell_eq, hc] using hhead
  · simpa [spell_eq, List.getLast_append, List.getLast_cons, spelledOperand_ne_nil] using hlast

theorem spell_no_newline (i : Instr) (c : Char) (h : c ∈ spell i) : (c == '\n') = false := by
  rw [spell_eq, List.mem_append, List.mem_cons] at h
  rcases h with h | rfl | h
  · exact isSpace_newline c (mnemonic_no_space _ c h)
  · rfl
  · exact isSpace_newline c (spelledOperand_no_space _ _ c h)

/-- The canonical spelling is one counted line without a label. -/
theorem sourceLines_spell (i : Instr) : sourceLines (spell i) = [.counted (spell i)] := by
  obtain ⟨c, rest, hc, hdollar, -⟩ := mnemonic_cons i.operation
  rw [sourceLines, splitWhere_none _ _ (spell_no_newline i), List.map_singleton, trim_spell]
  simp [classify, spell_eq, hc, definitionMark, definitionWord, hdollar.symm]

theorem splitLabel_spell (i : Instr) : splitLabel (spell i) = .ok (none, spell i) := by
  obtain ⟨c, rest, hc, -, hat⟩ := mnemonic_cons i.operation
  rw [spell_eq, hc, List.cons_append, splitLabel]
  exact fun _ h => hat (List.cons.inj h).1

/-- A run of digits does not begin with the `R` that would make the direct mark the indirect one. -/
theorem toDigits_ne_R_cons (val : Nat) (t : Text) : Nat.toDigits 10 val ≠ 'R' :: t := by
  intro h
  have hdigit : Char.isDigit 'R' :=
    Nat.isDigit_of_mem_toDigits (by omega) (by omega) (h ▸ List.mem_cons_self)
  cases hdigit

theorem operandOf_spelledOperand (labels vars : NameTable) (m : Mode) (val : Nat) :
    operandOf labels vars (spelledOperand m val) = .ok (m, val) := by
  have hvalue : operandValue vars (Nat.toDigits 10 val) = .ok val := by
    simp only [operandValue, literalOf_digits]
  cases m with
  | immediate | indirect =>
    simp only [spelledOperand, modeMark, List.cons_append, List.nil_append, operandOf, hvalue, Except.map]
  | direct =>
    rw [spelledOperand, modeMark, List.singleton_append, operandOf, hvalue]
    · rfl
    · exact fun t h => toDigits_ne_R_cons val t h

theorem emitInstruction_spell (labels vars : NameTable) (word : Int) (i : Instr) (h : decode word = some i) :
    emitInstruction labels vars (spell i) = .ok word := by
  simp only [emitInstruction, tokens_spell, operationOf_mnemonic, operandOf_spelledOperand]
  exact (emitWord_ok_iff_decode _ _ _ word).mpr (by rw [make_fields, h])

/-- Settles O56: the spelling is one line with no label and no variable, and its one instruction is emitted. -/
theorem spellingAssemblesBack : Obligations.SpellingAssemblesBack := by
  refine ⟨fun i => ?_, rfl, rfl, rfl, fun word i h => ?_⟩
  · rw [spell_eq, spelledOperand, List.append_assoc, List.append_assoc, List.singleton_append]
  · rw [assemble_ok, sourceLines_spell]
    refine ⟨[], [], by simp only [labelPass, splitLabel_spell], rfl, ?_⟩
    rw [emitPass_counted_ok]
    exact ⟨none, spell i, word, [], splitLabel_spell i, emitInstruction_spell [] [] word i h, rfl, rfl⟩

/-! ## The variables -/

theorem variablePass_error (address : Nat) (table : NameTable) (ls : List Line) (e : AsmError)
    (h : variablePass address table ls = .error e) : e = .invalidVariableDefinition := by
  induction ls generalizing address table with
  | nil => cases h
  | cons l rest ih =>
    cases l with
    | blank | counted t => exact ih address table h
    | definition d =>
      rw [variablePass] at h
      split at h
      · split at h
        · cases h
          rfl
        · exact ih _ _ h
      · cases h
        rfl

theorem findName_eq_none_iff (table : NameTable) (name : Text) :
    findName table name = none ↔ name ∉ table.map Prod.fst := by
  refine ⟨findName_none table name, fun h => ?_⟩
  unfold findName
  rw [List.lookup_eq_none_iff]
  intro p hp
  have : name ≠ p.1 := fun hn => h (hn ▸ List.mem_map_of_mem hp)
  simpa using this

/-- What the declaration of a variable needs: `$define` and a new name. -/
theorem variablePass_definition_ok (address : Nat) (table out : NameTable) (d : Text) (rest : List Line)
    (hd : ∃ us, tokens d = definitionWord :: us) :
    variablePass address table (.definition d :: rest) = .ok out ↔
      ∃ name, tokens d = [definitionWord, name] ∧ name ∉ table.map Prod.fst ∧
        variablePass (address + 1) (table ++ [(name, address)]) rest = .ok out := by
  obtain ⟨us, hus⟩ := hd
  rw [variablePass, hus]
  match us with
  | [] => simp
  | [name] =>
    simp only [List.cons.injEq, and_true, true_and, exists_eq_left']
    rw [← findName_eq_none_iff]
    cases findName table name <;> simp
  | u :: u' :: us' => simp

/-- Names that can all be declared after those of a table: distinct, and none of the table's. -/
def FreshNames (table : NameTable) (names : List Text) : Prop :=
  names.Nodup ∧ ∀ name ∈ names, name ∉ table.map Prod.fst

theorem freshNames_nil (table : NameTable) : FreshNames table [] :=
  ⟨List.nodup_nil, nofun⟩

theorem freshNames_cons (table : NameTable) (name : Text) (address : Nat) (names : List Text) :
    FreshNames table (name :: names) ↔
      name ∉ table.map Prod.fst ∧ FreshNames (table ++ [(name, address)]) names := by
  have hmem (u : Text) :
      u ∉ (table ++ [(name, address)]).map Prod.fst ↔ u ∉ table.map Prod.fst ∧ u ≠ name := by
    simp [not_or]
  have hne : name ∉ names ↔ ∀ u ∈ names, u ≠ name :=
    ⟨fun h u hu he => h (he ▸ hu), fun h hn => h name hn rfl⟩
  simp only [FreshNames, List.nodup_cons, List.forall_mem_cons, hmem, hne, forall_and]
  tauto

/-- The pass answers the names of the definition lines at consecutive addresses, exactly where each line is
`$define` and a name and no name stands twice (30_encoding.md R76, R82). -/
theorem variablePass_ok (address : Nat) (table out : NameTable) (ls : List Line)
    (hls : ∀ d ∈ definitionTexts ls, ∃ us, tokens d = definitionWord :: us) :
    variablePass address table ls = .ok out ↔ ∃ names : List Text,
      (definitionTexts ls).map tokens = names.map (fun name => [definitionWord, name]) ∧
      FreshNames table names ∧ out = table ++ names.zipIdx address := by
  induction ls generalizing address table with
  | nil =>
    constructor
    · intro h
      cases h
      exact ⟨[], rfl, freshNames_nil _, (List.append_nil _).symm⟩
    · rintro ⟨names, hnil, -, rfl⟩
      rw [List.map_eq_nil_iff.mp hnil.symm, List.zipIdx_nil, List.append_nil]
      rfl
  | cons l rest ih =>
    cases l with
    | blank | counted t => exact ih address table hls
    | definition d =>
      obtain ⟨hd, hrest⟩ := List.forall_mem_cons.mp hls
      rw [variablePass_definition_ok address table out d rest hd]
      simp only [ih _ _ hrest, definitionTexts, List.map_cons]
      constructor
      · rintro ⟨name, htok, hnew, names, hnames, hfresh, rfl⟩
        refine ⟨name :: names, by rw [htok, hnames, List.map_cons],
          (freshNames_cons table name address names).mpr ⟨hnew, hfresh⟩, ?_⟩
        rw [List.zipIdx_cons, List.append_assoc, List.singleton_append]
      · rintro ⟨_ | ⟨name, later⟩, hnames, hfresh, rfl⟩
        · cases hnames
        obtain ⟨htok, hlater⟩ := List.cons.inj hnames
        obtain ⟨hnew, hfresh'⟩ := (freshNames_cons table name address later).mp hfresh
        refine ⟨name, htok, hnew, later, hlater, hfresh', ?_⟩
        rw [List.zipIdx_cons, List.append_assoc, List.singleton_append]

/-- `variablePass_ok` for the variable pass of the assembler. -/
theorem variablePass_sourceLines_ok (t : Text) (address : Nat) (out : NameTable) :
    variablePass address [] (sourceLines t) = .ok out ↔ ∃ names : List Text,
      (definitionTexts (sourceLines t)).map tokens = names.map (fun name => [definitionWord, name]) ∧
      names.Nodup ∧ out = names.zipIdx address := by
  rw [variablePass_ok address [] out (sourceLines t) fun d hd =>
    tokens_definition d (sourceLines_definition t d ((mem_definitionTexts _ d).mp hd))]
  simp [FreshNames]

/-- Lines that declare distinct names declare no name twice and hold no line of another form. -/
theorem wellDeclared_of_nodup (defs : List Text) (names : List Text)
    (hdefs : defs.map tokens = names.map (fun name => [definitionWord, name])) (hnodup : names.Nodup) :
    ¬ ((∃ name, 2 ≤ (defs.map tokens).count [definitionWord, name]) ∨
      ∃ d ∈ defs, ∀ name, tokens d ≠ [definitionWord, name]) := by
  rintro (⟨name, hcount⟩ | ⟨d, hd, hbad⟩)
  · have hinj : Function.Injective fun name : Text => [definitionWord, name] := fun a b h => by simpa using h
    have hone := List.nodup_iff_count_le_one.mp (hnodup.map hinj) [definitionWord, name]
    rw [hdefs] at hcount
    omega
  · obtain ⟨name, -, hname⟩ := List.mem_map.mp (hdefs ▸ List.mem_map_of_mem hd)
    exact hbad name hname.symm

theorem assemble_of_variablePass_error (t : Text) (labels : NameTable) (e : AsmError)
    (hl : labelPass 0 [] (sourceLines t) = .ok labels)
    (hv : variablePass (countedLines (sourceLines t)) [] (sourceLines t) = .error e) :
    assemble t = .error e := by
  simp only [assemble, hl, hv]

/-- Settles O55: the pass answers `names.zipIdx L` or its one error. -/
theorem variablesFollowTheProgram : Obligations.VariablesFollowTheProgram := by
  intro t
  have hok := variablePass_sourceLines_ok t (countedLines (sourceLines t))
  refine ⟨fun names hnames hnodup => ?_, fun table htable => ?_, fun hbad => ?_⟩
  · exact ⟨_, (hok _).mpr ⟨names, hnames, hnodup, rfl⟩, List.zipIdx_map_fst _ _, by simp⟩
  · obtain ⟨names, hnames, hnodup, rfl⟩ := (hok table).mp htable
    refine ⟨?_, (List.zipIdx_map_fst _ names).symm ▸ hnodup, by simp⟩
    calc (definitionTexts (sourceLines t)).map tokens
        = names.map (fun name => [definitionWord, name]) := hnames
      _ = ((names.zipIdx _).map Prod.fst).map (fun name => [definitionWord, name]) := by
          rw [List.zipIdx_map_fst]
      _ = _ := List.map_map
  · have herror : variablePass (countedLines (sourceLines t)) [] (sourceLines t) =
        .error .invalidVariableDefinition := by
      cases h : variablePass (countedLines (sourceLines t)) [] (sourceLines t) with
      | error e => rw [variablePass_error _ _ _ e h]
      | ok table =>
        obtain ⟨names, hnames, hnodup, -⟩ := (hok table).mp h
        exact absurd hbad (wellDeclared_of_nodup _ names hnames hnodup)
    exact ⟨herror, fun labels hl => assemble_of_variablePass_error t labels _ hl herror⟩

end Sys2Proof.Machine
end

section
/-! PROOFS. The execution cycle (40_execution_cycle.md): the stages of a step, operand resolution, that every
instruction answers a next state, and how `run` repeats the step. -/

namespace Sys2Proof.Machine

/-! ## The stages of a step and the terminal states -/

/-- Settles O9: one lemma for each way the step can end, by the fetch and the decoding of the word at `pc`. -/
theorem stepRunsDecodedInstruction : Obligations.StepRunsDecodedInstruction := by
  refine fun s hr => ⟨step_of_pc_outside s hr, fun hpc => ?_⟩
  have hfetch : fetchWord s = some (s.reg.read s.pc.toNat) := if_pos hpc
  exact ⟨fun i hd => step_of_fetches s i hr ⟨_, hfetch, hd⟩, step_of_decode_none s _ hr hfetch⟩

/-- Settles O10: either flag makes the status other than running. -/
theorem terminalStatesTakeNoStep : Obligations.TerminalStatesTakeNoStep := by
  intro s hs
  have hr : s.status ≠ .running := by
    rcases hs with hh | hf
    · exact status_ne_running_of_halted s hh
    · obtain ⟨f, hf⟩ := Option.ne_none_iff_exists'.mp hf
      exact status_ne_running_of_fault s f hf
  exact ⟨fun t => step_terminal s t hr, fun n => run_of_not_running n s hr⟩

/-! ## Operand resolution -/

theorem inArray_natCast (s : State) (n : Nat) : s.inArray n ↔ n < s.cfg.memSize := by
  simp [State.inArray]

/-- Settles O13: `resolve_ok` and the two out-of-range levels for the modes, `exec_of_resolve_error` for the
instructions. -/
theorem operandIsResolvedForEveryInstruction : Obligations.OperandIsResolvedForEveryInstruction := by
  refine ⟨fun s val => ?_, exec_of_resolve_error⟩
  have hin : val < s.cfg.memSize → s.inArray val := (inArray_natCast s val).mpr
  have hout : s.cfg.memSize ≤ val → ¬ s.inArray val := fun h => by rw [inArray_natCast]; omega
  refine ⟨rfl, fun h => ?_, fun h => ?_, fun h hp => ?_, fun h hp => ?_, fun h => ?_⟩
  · exact (resolve_ok s .direct val _).mpr ⟨hin h, rfl⟩
  · exact resolve_of_val_outside s .direct val nofun (hout h)
  · exact (resolve_ok s .indirect val _).mpr ⟨hin h, hp, rfl⟩
  · exact resolve_of_pointer_outside s val (hin h) hp
  · exact resolve_of_val_outside s .indirect val nofun (hout h)

/-! ## Every instruction answers a next state -/

theorem withOperand_total (s : State) (mode : Mode) (val : Nat) (effect : Int → State) :
    ∃ t, withOperand s mode val (fun v => .next (effect v)) = .next t := by
  cases h : resolve s mode val with
  | ok v => exact ⟨_, withOperand_ok s mode val v _ h⟩
  | error r => exact ⟨_, withOperand_error s mode val r _ h⟩

theorem exec_total (i : Instr) (s : State) : ∃ t, exec i s = .next t := by
  cases i with
  | str m n =>
    obtain ⟨t, ht⟩ := withOperand_total s m n fun v => finishStore s (storeDest s m n v)
    exact ⟨t, (execStr_eq m n s).trans ht⟩
  | hlt m n | lda m n | add m n | sub m n | and m n | orr m n | xor m n | not m n | lsl m n | lsr m n
  | bze m n | bne m n | bpo m n | bnz m n | jmp m n => exact withOperand_total s m n _

theorem step_total (s : State) (hr : s.status = .running) : ∃ t, step s = .next t := by
  rw [step_running s hr]
  rcases cycle_cases s with ⟨-, h⟩ | ⟨word, -, -, h⟩ | ⟨word, i, -, -, h⟩ <;> rw [h]
  · exact ⟨_, rfl⟩
  · exact ⟨_, rfl⟩
  · exact exec_total i s.advance

/-- Settles O11: the execute phase by `exec_total`, and the step by the stage at which its cycle ends. -/
theorem runningMachineAlwaysSteps : Obligations.RunningMachineAlwaysSteps :=
  ⟨exec_total, step_total⟩

/-! ## Run -/

theorem run_add (m n : Nat) (s : State) : run (m + n) s = run n (run m s) := by
  induction m generalizing s with
  | zero => rw [Nat.zero_add, run]
  | succ m ih =>
    by_cases hr : s.status = .running
    · obtain ⟨t, ht⟩ := step_total s hr
      rw [Nat.add_right_comm, run_succ_of_step _ s t ht, run_succ_of_step _ s t ht, ih]
    · simp only [run_of_not_running _ s hr]

/-- Settles O51: runs compose by `run_add`, and the part after a terminal state changes nothing. -/
theorem runRepeatsTheStepWhileRunning : Obligations.RunRepeatsTheStepWhileRunning := by
  refine ⟨run_add, fun n s hr => ?_, fun m n s hmn hend => ?_⟩
  · obtain ⟨t, ht⟩ := step_total s hr
    exact ⟨t, ht, run_succ_of_step n s t ht⟩
  · calc run n s = run (n - m) (run m s) := by rw [← run_add, Nat.add_sub_cancel' hmn]
      _ = run m s := run_of_not_running (n - m) (run m s) hend

/-! ## Jumps to themselves -/

theorem run_of_step_self (n : Nat) (s : State) (h : step s = .next s) : run n s = s :=
  run_induction (· = s) (fun _ _ hu ht => Host.Outcome.next.inj ((hu ▸ ht).symm.trans h)) n s rfl

theorem exec_jmp_of_resolve_ok (s : State) (mode : Mode) (val : Nat) (v : Int)
    (h : resolve s mode val = .ok v) : exec (.jmp mode val) s = .next { s with pc := v } :=
  withOperand_ok s mode val v _ h

theorem exec_bze_of_resolve_ok (s : State) (mode : Mode) (val : Nat) (v : Int)
    (h : resolve s mode val = .ok v) : exec (.bze mode val) s = .next (branchIf s (accZero s) v) :=
  withOperand_ok s mode val v _ h

theorem accZero_eq_true (s : State) (h : s.acc = 0) : accZero s = true :=
  decide_eq_true h

/-- The increment of `pc` is undone by a transfer back to the instruction's own address. -/
theorem advance_withPc_self (s : State) (a : Int) (h : s.pc = a) : { s.advance with pc := a } = s := by
  subst h
  rfl

/-- Settles O31: both instructions transfer to `a`, which undoes the increment, so the step is a fixed point. -/
theorem selfJumpNeverEnds : Obligations.SelfJumpNeverEnds := by
  intro s a hr hpc hi
  have hstep : step s = .next s := by
    rcases hi with hjmp | ⟨hbze, hacc⟩
    · rw [step_of_fetches s _ hr hjmp, exec_jmp_of_resolve_ok s.advance .immediate a a rfl,
        advance_withPc_self s a hpc]
    · rw [step_of_fetches s _ hr hbze, exec_bze_of_resolve_ok s.advance .immediate a a rfl,
        accZero_eq_true s.advance hacc, branchIf_taken, advance_withPc_self s a hpc]
  refine ⟨hstep, fun n => ?_⟩
  have hrun := run_of_step_self n s hstep
  exact ⟨hrun, hrun.symm ▸ hr⟩

end Sys2Proof.Machine
end

section
/-! PROOFS. Data movement (41_data_movement.md): HLT, LDA and STR, and that STR alone writes the register
array. -/

namespace Sys2Proof.Machine

/-! ## HLT and LDA -/

/-- An unreadable operand is an OperandAddressFault, for every instruction (40_execution_cycle.md R105). -/
theorem exec_operandAddressFault (i : Instr) (s : State) (r : Raised) (h : resolve s i.mode i.val = .error r) :
    exec i s = .next { s with fault := some ⟨.operandAddressFault, s.pc - 1, r.info⟩ } := by
  obtain ⟨hcause, -⟩ := resolve_error_cause s i.mode i.val r h
  rw [exec_of_resolve_error i s r h, hcause]

/-- Settles O15: the effect of HLT, or the operand's fault in its place. -/
theorem hltSetsHalted : Obligations.HltSetsHalted :=
  ⟨rfl, fun s mode val => ⟨exec_hlt_of_resolve_ok s mode val, exec_operandAddressFault (.hlt mode val) s⟩⟩

/-- Settles O16: the effect of LDA, or the operand's fault in its place. -/
theorem ldaLoadsEffectiveValue : Obligations.LdaLoadsEffectiveValue :=
  ⟨rfl, fun s mode val => ⟨exec_lda_of_resolve_ok s mode val, exec_operandAddressFault (.lda mode val) s⟩⟩

/-! ## STR -/

/-- The table of R122 determines the destination: what agrees with it under every setting of STR_DEST and in
every mode is `storeDest`. -/
theorem storeDest_eq_of_table (s : State) (mode : Mode) (val : Nat) (v d : Int)
    (heffective : s.cfg.strDest = .effective → d = v) (hliteral : s.cfg.strDest = .literal → d = val)
    (hlocation : s.cfg.strDest = .location → mode ≠ .indirect → d = val)
    (hpointer : s.cfg.strDest = .location → mode = .indirect → d = s.reg.read val) :
    storeDest s mode val v = d := by
  unfold storeDest
  split
  · next h => exact (heffective h).symm
  · next h => exact (hliteral h).symm
  · next h =>
    cases mode with
    | immediate | direct => exact (hlocation h nofun).symm
    | indirect => exact (hpointer h rfl).symm

/-- Settles O17: the table fixes the destination, and `finishStore` writes it or faults. -/
theorem strWritesTheSelectedCell : Obligations.StrWritesTheSelectedCell := by
  refine ⟨rfl, fun s mode val =>
    ⟨fun v d hv heff hlit hloc hptr => ?_, exec_operandAddressFault (.str mode val) s⟩⟩
  rw [exec_str_of_resolve_ok s mode val v hv, storeDest_eq_of_table s mode val v d heff hlit hloc hptr]
  exact ⟨fun hd => by rw [finishStore_of_inArray s d hd], fun hd => by rw [finishStore_of_not_inArray s d hd]⟩

/-- `read_write` for a destination that is an index of the array. -/
theorem read_write_of_inArray (s : State) (hs : Memory.wf s.reg) (d x : Int) (hd : s.inArray d) (a : Nat) :
    (s.reg.write d.toNat x).read a = if (a : Int) = d then x else s.reg.read a := by
  have hindex : a = d.toNat ↔ (a : Int) = d := by
    have hnonneg : 0 ≤ d := hd.1
    omega
  rw [read_write s.reg hs]
  simp only [hindex]

/-- Settles O18: the store is a write of one cell, and `read_write_of_inArray` reads it. -/
theorem strChangesExactlyItsCell : Obligations.StrChangesExactlyItsCell := by
  intro s mode val v hs hv hd
  refine ⟨_, exec_str_of_resolve_ok s mode val v hv, ?_⟩
  rw [finishStore_of_inArray s _ hd]
  exact ⟨read_write_of_inArray s hs _ s.acc hd, rfl, rfl, rfl, rfl, rfl⟩

/-- Everything `exec` can do to the register array: nothing, or the write of STR. -/
theorem exec_reg_cases (i : Instr) (s t : State) (h : exec i s = .next t) :
    t.reg = s.reg ∨ i.operation = .str ∧ ∃ v, resolve s i.mode i.val = .ok v ∧
      s.inArray (storeDest s i.mode i.val v) ∧
      t.reg = s.reg.write (storeDest s i.mode i.val v).toNat s.acc := by
  rcases exec_cases i s t h with ⟨r, -, rfl⟩ | ⟨v, hv, he⟩
  · exact Or.inl (raise_reg s r)
  · rcases he.reg_cases with hreg | ⟨hi, hreg, hd⟩
    · exact Or.inl hreg
    · exact Or.inr ⟨hi, v, hv, hd, hreg⟩

/-- Settles O36: the write of STR is the one change of the register array, and it reads back as before outside
its destination. -/
theorem onlyStrWritesCells : Obligations.OnlyStrWritesCells := by
  intro i s t hs h
  rcases exec_reg_cases i s t h with hreg | ⟨hi, v, hv, hd, hreg⟩ <;> rw [hreg]
  · exact ⟨fun _ _ => rfl, fun _ _ _ _ _ => rfl⟩
  · refine ⟨fun hne => absurd hi hne, fun _ d hdest a ha => ?_⟩
    rw [read_write_of_inArray s hs _ s.acc hd, hdest v hv, if_neg ha]

end Sys2Proof.Machine
end

section
/-! PROOFS. The ALU (42_alu.md): what each of its eight instructions makes of the accumulator, and the corner
cases of the bitwise ones. -/

namespace Sys2Proof.Machine

/-! ## ADD and SUB -/

theorem exec_add_of_resolve_ok (s : State) (mode : Mode) (val : Nat) (v : Int)
    (h : resolve s mode val = .ok v) : exec (.add mode val) s = .next (finishSum s (s.acc + v) v) :=
  withOperand_ok s mode val v _ h

theorem exec_sub_of_resolve_ok (s : State) (mode : Mode) (val : Nat) (v : Int)
    (h : resolve s mode val = .ok v) : exec (.sub mode val) s = .next (finishSum s (s.acc - v) v) :=
  withOperand_ok s mode val v _ h

theorem finishSum_of_isWord (s : State) (r v : Int) (h : isWord s.cfg.w r) :
    finishSum s r v = { s with acc := r } :=
  if_pos h

theorem finishSum_of_overflow_fault (s : State) (r v : Int) (h : ¬ isWord s.cfg.w r)
    (ho : s.cfg.arithOvf = .fault) :
    finishSum s r v = { s with fault := some ⟨.arithmeticOverflow, s.pc - 1, v⟩ } := by
  rw [finishSum, if_neg h, ho]
  exact raise_eq s _ nofun

theorem finishSum_of_overflow_wrap (s : State) (r v : Int) (h : ¬ isWord s.cfg.w r)
    (ho : s.cfg.arithOvf = .wrap) : finishSum s r v = { s with acc := truncW s.cfg.w r } := by
  rw [finishSum, if_neg h, ho]

/-- The next state of R141 and R142 for the exact result `r`: written, or the overflow faults or wraps. -/
theorem outcome_of_finishSum (s : State) (r v : Int) (o : Host.Outcome State Fault Refusal)
    (h : o = .next (finishSum s r v)) :
    (isWord s.cfg.w r → o = .next { s with acc := r }) ∧
    (¬ isWord s.cfg.w r →
      (s.cfg.arithOvf = .fault →
        o = .next { s with fault := some ⟨.arithmeticOverflow, s.pc - 1, v⟩ }) ∧
      (s.cfg.arithOvf = .wrap → o = .next { s with acc := truncW s.cfg.w r })) := by
  subst h
  exact ⟨fun hr => congrArg _ (finishSum_of_isWord s r v hr), fun hr =>
    ⟨fun ho => congrArg _ (finishSum_of_overflow_fault s r v hr ho),
      fun ho => congrArg _ (finishSum_of_overflow_wrap s r v hr ho)⟩⟩

/-- Settles O19: ADD finishes with the exact sum, or the operand's fault comes in its place. -/
theorem addWritesSumOrOverflows : Obligations.AddWritesSumOrOverflows :=
  ⟨rfl, fun s mode val =>
    ⟨fun v hv => outcome_of_finishSum s _ v _ (exec_add_of_resolve_ok s mode val v hv),
      exec_operandAddressFault (.add mode val) s⟩⟩

/-- Settles O20: SUB finishes with the exact difference, or the operand's fault comes in its place. -/
theorem subWritesDifferenceOrOverflows : Obligations.SubWritesDifferenceOrOverflows :=
  ⟨rfl, fun s mode val =>
    ⟨fun v hv => outcome_of_finishSum s _ v _ (exec_sub_of_resolve_ok s mode val v hv),
      exec_operandAddressFault (.sub mode val) s⟩⟩

/-! ## AND, ORR, XOR and NOT -/

theorem exec_not_of_resolve_ok (s : State) (mode : Mode) (val : Nat) (v : Int)
    (h : resolve s mode val = .ok v) : exec (.not mode val) s = .next { s with acc := -s.acc - 1 } :=
  withOperand_ok s mode val v _ h

/-- Settles O21: each writes `bitwiseW` of its operation, which is the stated `trunc_W`. -/
theorem bitwiseInstructionsCombinePatterns : Obligations.BitwiseInstructionsCombinePatterns :=
  ⟨rfl, rfl, rfl, fun s mode val =>
    ⟨fun v hv => ⟨exec_and_of_resolve_ok s mode val v hv, exec_orr_of_resolve_ok s mode val v hv,
        exec_xor_of_resolve_ok s mode val v hv⟩,
      fun r hr => ⟨exec_operandAddressFault (.and mode val) s r hr,
        exec_operandAddressFault (.orr mode val) s r hr, exec_operandAddressFault (.xor mode val) s r hr⟩⟩⟩

/-- Settles O24: the complement of a W-bit value is one, and the value of the operand is discarded. -/
theorem notComplementsAcc : Obligations.NotComplementsAcc :=
  ⟨rfl, fun s mode val =>
    ⟨fun v hv => ⟨exec_not_of_resolve_ok s mode val v hv, isWord_complement s.cfg.w s.acc⟩,
      exec_operandAddressFault (.not mode val) s⟩⟩

/-- The unsigned reading of a W-bit value moves the negative ones up by `2^W`. -/
theorem unsignedW_of_isWord (w : Nat) (h : 1 ≤ w) (x : Int) (hx : isWord w x) :
    (unsignedW w x : Int) = if 0 ≤ x then x else x + 2 ^ w := by
  have hhalf := two_pow_half w h
  obtain ⟨hlow, hhigh⟩ := hx
  rw [unsignedW_cast]
  split
  · exact Int.emod_eq_of_lt (by omega) (by omega)
  · rw [← Int.add_emod_right, Int.emod_eq_of_lt (by omega) (by omega)]

/-- A 16-bit value is its own W-bit pattern. -/
theorem unsignedW_of_lt_65536 (w k : Nat) (hw : 23 ≤ w) (hk : k < 65536) : unsignedW w (k : Int) = k :=
  unsignedW_of_lt w k (hk.trans_le (Nat.pow_le_pow_right (n := 2) (i := 16) (by decide) (by omega)))

/-- `AND #k` clears bits W-1:16 (42_alu.md R143). -/
theorem bitwiseW_and_bounds (w k : Nat) (x : Int) (hw : 23 ≤ w) (hk : k < 65536) :
    0 ≤ bitwiseW w (· &&& ·) x k ∧ bitwiseW w (· &&& ·) x k ≤ 65535 := by
  have hle : unsignedW w x &&& k ≤ k := Nat.and_le_right
  have hval : bitwiseW w (· &&& ·) x k = zextW (unsignedW w x &&& k) := by
    rw [bitwiseW, unsignedW_of_lt_65536 w k hw hk]
    exact truncW_of_isWord w (by omega) _ (zextW_isWord w _ hw (by omega))
  rw [hval, zextW]
  omega

/-- Two W-bit values whose patterns agree in bits W-1:16 agree in floor division by `2^16`: `2^16` divides
`2^(W-1)`, so those bits also fix the sign. -/
theorem ediv_eq_of_unsignedW_div_eq (w : Nat) (hw : 23 ≤ w) (x y : Int) (hx : isWord w x) (hy : isWord w y)
    (h : unsignedW w x / 65536 = unsignedW w y / 65536) : x / 65536 = y / 65536 := by
  have hux := unsignedW_of_isWord w (by omega) x hx
  have huy := unsignedW_of_isWord w (by omega) y hy
  have hhalf := two_pow_half w (by omega)
  obtain ⟨q, hq⟩ : ∃ q : Int, 2 ^ (w - 1) = 65536 * q := pow_dvd_pow (2 : Int) (m := 16) (by omega)
  obtain ⟨hx1, hx2⟩ := hx
  obtain ⟨hy1, hy2⟩ := hy
  omega

/-- A bitwise operation with a 16-bit value that changes no bit above bit 15 of the pattern leaves bits W-1:16
of the value (42_alu.md R144, R145). -/
theorem bitwiseW_ediv_of_keeps_high (w k : Nat) (op : Nat → Nat → Nat) (x : Int) (hw : 23 ≤ w) (hk : k < 65536)
    (hx : isWord w x) (hop : ∀ {a b : Nat}, a < 2 ^ w → b < 2 ^ w → op a b < 2 ^ w)
    (hhigh : op (unsignedW w x) k / 65536 = unsignedW w x / 65536) :
    bitwiseW w op x k / 65536 = x / 65536 := by
  have hword : isWord w (bitwiseW w op x k) := truncW_isWord w (by omega) _
  refine ediv_eq_of_unsignedW_div_eq w hw _ x hword hx ?_
  rw [unsignedW_bitwiseW w op x k hop, unsignedW_of_lt_65536 w k hw hk, hhigh]

theorem or_div_65536 (a k : Nat) (hk : k < 65536) : (a ||| k) / 65536 = a / 65536 := by
  rw [Nat.or_div_two_pow (n := 16), Nat.div_eq_of_lt hk, Nat.or_zero]

theorem xor_div_65536 (a k : Nat) (hk : k < 65536) : (a ^^^ k) / 65536 = a / 65536 := by
  rw [Nat.xor_div_two_pow (n := 16), Nat.div_eq_of_lt hk, Nat.xor_zero]

/-- Exclusive or with all bits set complements a pattern. -/
theorem xor_two_pow_sub_one (w a : Nat) (h : a < 2 ^ w) : a ^^^ (2 ^ w - 1) = 2 ^ w - (a + 1) := by
  refine Nat.eq_of_testBit_eq fun i => ?_
  rw [Nat.testBit_xor, Nat.testBit_two_pow_sub_one, Nat.testBit_two_pow_sub_succ h]
  by_cases hi : i < w
  · simp [hi]
  · have hhigh : a.testBit i = false :=
      Nat.testBit_lt_two_pow (h.trans_le (Nat.pow_le_pow_right (by decide) (by omega)))
    simp [hi, hhigh]

/-- XOR with -1, all bits set, is the complement (42_alu.md R145, R146). -/
theorem bitwiseW_xor_neg_one (w : Nat) (h : 1 ≤ w) (x : Int) (hx : isWord w x) :
    bitwiseW w (· ^^^ ·) x (-1) = -x - 1 := by
  have hlt := unsignedW_lt w x
  have hones : unsignedW w (-1) = 2 ^ w - 1 := by
    have hcast := unsignedW_of_isWord w h (-1) (by simpa using isWord_complement w 0 (isWord_zero w))
    zify [Nat.one_le_two_pow]
    omega
  symm
  refine eq_truncW_of_dvd_sub w h _ _ (isWord_complement w x hx) ?_
  change (2 : Int) ^ w ∣ -x - 1 - ((unsignedW w x ^^^ unsignedW w (-1) : Nat) : Int)
  rw [hones, xor_two_pow_sub_one w _ hlt]
  push_cast [Nat.cast_sub (show unsignedW w x + 1 ≤ 2 ^ w from hlt)]
  have hx' := unsignedW_of_isWord w h x hx
  split at hx'
  · exact ⟨-1, by omega⟩
  · exact ⟨0, by omega⟩

/-- Settles O23: a 16-bit operand has no bit above bit 15, so AND clears those bits and ORR and XOR keep them;
the pattern of -1 has every bit set. -/
theorem bitwiseCornerCases : Obligations.BitwiseCornerCases := by
  intro s hs
  have hw := hs.cfgValid.1
  refine ⟨fun k hk => ⟨_, _, _, exec_and_of_resolve_ok s .immediate k k rfl,
    exec_orr_of_resolve_ok s .immediate k k rfl, exec_xor_of_resolve_ok s .immediate k k rfl,
    bitwiseW_and_bounds s.cfg.w k s.acc hw hk, ?_, ?_⟩, fun mode val hv => ?_⟩
  · exact bitwiseW_ediv_of_keeps_high s.cfg.w k _ s.acc hw hk hs.accWord Nat.or_lt_two_pow
      (or_div_65536 _ k hk)
  · exact bitwiseW_ediv_of_keeps_high s.cfg.w k _ s.acc hw hk hs.accWord Nat.xor_lt_two_pow
      (xor_div_65536 _ k hk)
  · rw [exec_xor_of_resolve_ok s mode val _ hv, exec_not_of_resolve_ok s mode val _ hv,
      bitwiseW_xor_neg_one s.cfg.w hs.one_le_w s.acc hs.accWord]

/-! ## LSL and LSR -/

theorem exec_lsl_of_resolve_ok (s : State) (mode : Mode) (val : Nat) (v : Int)
    (h : resolve s mode val = .ok v) :
    exec (.lsl mode val) s = .next (finishShift s v (shiftLeftW s.cfg.w s.acc)) :=
  withOperand_ok s mode val v _ h

theorem exec_lsr_of_resolve_ok (s : State) (mode : Mode) (val : Nat) (v : Int)
    (h : resolve s mode val = .ok v) :
    exec (.lsr mode val) s = .next (finishShift s v (shiftRightW s.cfg.w s.cfg.lsrKind s.acc)) :=
  withOperand_ok s mode val v _ h

theorem finishShift_of_neg (s : State) (v : Int) (shift : Nat → Int) (hv : v < 0) :
    finishShift s v shift = { s with fault := some ⟨.shiftAmountFault, s.pc - 1, v⟩ } :=
  (if_pos hv).trans (raise_eq s _ nofun)

theorem finishShift_of_nonneg (s : State) (v : Int) (shift : Nat → Int) (hv : 0 ≤ v) :
    finishShift s v shift = { s with acc := shift v.toNat } :=
  if_neg (not_lt.mpr hv)

/-- An amount of W or more shifts every bit out (42_alu.md R147). -/
theorem shiftLeftW_of_le (w : Nat) (x : Int) (n : Nat) (h : w ≤ n) : shiftLeftW w x n = 0 :=
  if_pos h

/-- The two kinds of shift right agree on a W-bit value that is not negative (42_alu.md R148). -/
theorem shiftRightW_of_nonneg (w : Nat) (h : 1 ≤ w) (kind : LsrKind) (x : Int) (n : Nat) (hx : isWord w x)
    (h0 : 0 ≤ x) : shiftRightW w kind x n = x / 2 ^ n := by
  cases kind with
  | arithmetic => exact shiftRightW_arithmetic w x n
  | logical =>
    have hpattern : (unsignedW w x : Int) = x := by rw [unsignedW_of_isWord w h x hx, if_pos h0]
    rw [shiftRightW_logical]
    push_cast
    rw [hpattern]
    exact truncW_of_isWord w h _ (shiftRight_isWord w x n hx)

/-- Settles O25: `shiftLeftW` is the stated formula, and 0 from W on; `finishShift` faults on a negative
amount. -/
theorem lslShiftsLeft : Obligations.LslShiftsLeft := by
  refine ⟨rfl, fun s mode val => ⟨fun v hv => ?_, exec_operandAddressFault (.lsl mode val) s⟩⟩
  rw [exec_lsl_of_resolve_ok s mode val v hv]
  refine ⟨fun h => ?_, fun h => ?_, fun h => ?_⟩
  · rw [finishShift_of_nonneg s v _ h, shiftLeftW_eq]
  · rw [finishShift_of_nonneg s v _ (by omega), shiftLeftW_of_le s.cfg.w s.acc _ (by omega)]
  · rw [finishShift_of_neg s v _ h]

/-- Settles O26: `shiftRightW` by its two kinds, and where they agree; `finishShift` faults on a negative
amount. -/
theorem lsrShiftsRight : Obligations.LsrShiftsRight := by
  refine ⟨rfl, fun s mode val => ⟨fun v hv => ?_, exec_operandAddressFault (.lsr mode val) s⟩⟩
  rw [exec_lsr_of_resolve_ok s mode val v hv]
  refine ⟨fun h hkind => ?_, fun h hkind => ?_, fun h hw hacc h0 => ?_, fun h => ?_⟩
  · rw [finishShift_of_nonneg s v _ h, hkind, shiftRightW_arithmetic]
  · rw [finishShift_of_nonneg s v _ h, hkind, shiftRightW_logical]
  · rw [finishShift_of_nonneg s v _ h, shiftRightW_of_nonneg s.cfg.w hw _ s.acc _ hacc h0]
  · rw [finishShift_of_neg s v _ h]

end Sys2Proof.Machine
end

section
/-! PROOFS. Control transfer (43_control_transfer.md): when each of the four branches is taken, and that JMP
leaves a bad target to the next fetch. -/

namespace Sys2Proof.Machine

/-! ## The branches -/

theorem exec_bne_of_resolve_ok (s : State) (mode : Mode) (val : Nat) (v : Int)
    (h : resolve s mode val = .ok v) : exec (.bne mode val) s = .next (branchIf s (accNegative s) v) :=
  withOperand_ok s mode val v _ h

theorem exec_bpo_of_resolve_ok (s : State) (mode : Mode) (val : Nat) (v : Int)
    (h : resolve s mode val = .ok v) : exec (.bpo mode val) s = .next (branchIf s (accPositive s) v) :=
  withOperand_ok s mode val v _ h

theorem exec_bnz_of_resolve_ok (s : State) (mode : Mode) (val : Nat) (v : Int)
    (h : resolve s mode val = .ok v) : exec (.bnz mode val) s = .next (branchIf s (accNonZero s) v) :=
  withOperand_ok s mode val v _ h

section
variable (s : State) (v : Int) (p : Prop) [Decidable p]

/-- The next state of a branch on the condition `p` (43_control_transfer.md R170): the target in `pc`, or the
state as it is. -/
theorem outcome_of_branchIf (o : Host.Outcome State Fault Refusal)
    (h : o = .next (branchIf s (decide p) v)) :
    (p → o = .next { s with pc := v }) ∧ (¬ p → o = .next s) := by
  subst h
  refine ⟨fun hp => ?_, fun hp => ?_⟩
  · rw [decide_eq_true hp, branchIf_taken]
  · rw [decide_eq_false hp, branchIf_not_taken]

/-- Where the target is not the fall-through, `pc` tells whether the branch was taken. -/
theorem branchIf_pc_eq_iff (hv : v ≠ s.pc) : (branchIf s (decide p) v).pc = v ↔ p := by
  by_cases hp : p
  · rw [decide_eq_true hp, branchIf_taken]
    exact iff_of_true rfl hp
  · rw [decide_eq_false hp, branchIf_not_taken]
    exact iff_of_false hv.symm hp

end

/-- Settles O29: `pc` tells which of the four conditions hold, and the sign of `acc` is exactly one of three. -/
theorem exactlyOneSignBranchIsTaken : Obligations.ExactlyOneSignBranchIsTaken := by
  intro s mode val v hv hne
  have hzero : (branchIf s (accZero s) v).pc = v ↔ s.acc = 0 := branchIf_pc_eq_iff s v _ hne
  have hneg : (branchIf s (accNegative s) v).pc = v ↔ s.acc < 0 := branchIf_pc_eq_iff s v _ hne
  have hpos : (branchIf s (accPositive s) v).pc = v ↔ 0 < s.acc := branchIf_pc_eq_iff s v _ hne
  have hnonzero : (branchIf s (accNonZero s) v).pc = v ↔ s.acc ≠ 0 := branchIf_pc_eq_iff s v _ hne
  refine ⟨_, _, _, _, exec_bze_of_resolve_ok s mode val v hv, exec_bne_of_resolve_ok s mode val v hv,
    exec_bpo_of_resolve_ok s mode val v hv, exec_bnz_of_resolve_ok s mode val v hv, ?_,
    hnonzero.trans hzero.not.symm⟩
  simp only [ne_eq, hzero, hneg, hpos]
  rcases lt_trichotomy s.acc 0 with h | h | h
  · exact Or.inr (Or.inl ⟨h.ne, h, h.not_gt⟩)
  · exact Or.inl ⟨h, h.not_lt, h.not_gt⟩
  · exact Or.inr (Or.inr ⟨h.ne', h.not_gt, h⟩)

/-- Settles O27: the outcome of a branch on `acc = 0` and of one on its negation, or the operand's fault. -/
theorem bzeAndBnzTestZero : Obligations.BzeAndBnzTestZero := by
  refine ⟨rfl, rfl, fun s mode val => ⟨fun v hv => ?_, fun r hr =>
    ⟨exec_operandAddressFault (.bze mode val) s r hr, exec_operandAddressFault (.bnz mode val) s r hr⟩⟩⟩
  obtain ⟨hbze, hbzeNot⟩ := outcome_of_branchIf s v (s.acc = 0) _ (exec_bze_of_resolve_ok s mode val v hv)
  obtain ⟨hbnz, hbnzNot⟩ := outcome_of_branchIf s v (s.acc ≠ 0) _ (exec_bnz_of_resolve_ok s mode val v hv)
  exact ⟨hbze, hbzeNot, hbnz, fun h => hbnzNot (not_not_intro h)⟩

/-- Settles O28: the outcome of a branch on each strict sign, which zero does not have, or the operand's
fault. -/
theorem bneAndBpoTestTheSign : Obligations.BneAndBpoTestTheSign := by
  refine ⟨rfl, rfl, fun s mode val => ⟨fun v hv => ?_, fun r hr =>
    ⟨exec_operandAddressFault (.bne mode val) s r hr, exec_operandAddressFault (.bpo mode val) s r hr⟩⟩⟩
  obtain ⟨hbne, hbneNot⟩ := outcome_of_branchIf s v (s.acc < 0) _ (exec_bne_of_resolve_ok s mode val v hv)
  obtain ⟨hbpo, hbpoNot⟩ := outcome_of_branchIf s v (0 < s.acc) _ (exec_bpo_of_resolve_ok s mode val v hv)
  exact ⟨hbne, fun h => hbneNot (not_lt.mpr h), hbpo, fun h => hbpoNot (not_lt.mpr h)⟩

/-! ## JMP -/

/-- Settles O30: the transfer checks nothing, so the fetch at the target is what faults. -/
theorem jmpWritesPc : Obligations.JmpWritesPc :=
  ⟨rfl, fun s mode val =>
    ⟨fun v hv => ⟨exec_jmp_of_resolve_ok s mode val v hv, step_of_pc_outside { s with pc := v }⟩,
      exec_operandAddressFault (.jmp mode val) s⟩⟩

end Sys2Proof.Machine
end

section
/-! PROOFS. Faults (60_exceptions.md): which faults the execute phase and the step raise, each under its condition
in the table of R191, that taking one writes the record and `pc` alone (R194), and what writes `acc`. -/

namespace Sys2Proof.Machine

/-! ## The faults of the execute phase -/

/-- The faults that the execute phase of `i` raises in `s` (60_exceptions.md R191, causes 3 to 6). -/
inductive ExecRaises (i : Instr) (s : State) : Raised → Prop where
  | operand (r : Raised) (h : resolve s i.mode i.val = .error r) : ExecRaises i s r
  | store (v : Int) (hv : resolve s i.mode i.val = .ok v) (hi : i.operation = .str)
      (hd : ¬ s.inArray (storeDest s i.mode i.val v)) :
      ExecRaises i s ⟨.storeAddressFault, storeDest s i.mode i.val v⟩
  | overflow (v : Int) (hv : resolve s i.mode i.val = .ok v) (ho : s.cfg.arithOvf = .fault)
      (hi : (i.operation = .add ∧ ¬ isWord s.cfg.w (s.acc + v)) ∨
        (i.operation = .sub ∧ ¬ isWord s.cfg.w (s.acc - v))) :
      ExecRaises i s ⟨.arithmeticOverflow, v⟩
  | shiftAmount (v : Int) (hv : resolve s i.mode i.val = .ok v) (hi : i.operation = .lsl ∨ i.operation = .lsr)
      (hneg : v < 0) : ExecRaises i s ⟨.shiftAmountFault, v⟩

/-- `t` keeps the fault record of `s`, or it is `s` after a fault that the execute phase of `i` raises. -/
def KeepsFaultOrRaises (i : Instr) (s t : State) : Prop :=
  t.fault = s.fault ∨ ∃ r, ExecRaises i s r ∧ t = s.raise r

theorem Effect.keepsFaultOrRaises {i : Instr} {s t : State} {v : Int} (hv : resolve s i.mode i.val = .ok v)
    (h : Effect i s v t) : KeepsFaultOrRaises i s t := by
  cases h with
  | storeFaults hi hd => exact Or.inr ⟨_, .store v hv hi hd, rfl⟩
  | sums r hi =>
    rcases finishSum_cases s r v with ⟨-, hs⟩ | ⟨hr, ho, hs⟩ | ⟨-, -, hs⟩ <;> rw [hs]
    · exact Or.inl rfl
    · refine Or.inr ⟨_, .overflow v hv ho ?_, rfl⟩
      rcases hi with ⟨hadd, rfl⟩ | ⟨hsub, rfl⟩
      · exact Or.inl ⟨hadd, hr⟩
      · exact Or.inr ⟨hsub, hr⟩
    · exact Or.inl rfl
  | shifts shift hi =>
    rcases finishShift_cases s v shift with ⟨hneg, hs⟩ | ⟨-, hs⟩ <;> rw [hs]
    · exact Or.inr ⟨_, .shiftAmount v hv (hi.imp And.left And.left) hneg, rfl⟩
    · exact Or.inl rfl
  | branches cond => exact Or.inl (by simp)
  | halts | loads | stores | combines | complements | jumps => exact Or.inl rfl

theorem exec_keepsFaultOrRaises (i : Instr) (s t : State) (h : exec i s = .next t) :
    KeepsFaultOrRaises i s t := by
  rcases exec_cases i s t h with ⟨r, hr, rfl⟩ | ⟨v, hv, he⟩
  · exact Or.inr ⟨r, .operand r hr, rfl⟩
  · exact he.keepsFaultOrRaises hv

/-- A fault recorded where none was before is one that the execute phase raises. -/
theorem exec_raises_of_fault (i : Instr) (s t : State) (f : FaultRecord) (hs : s.fault = none)
    (h : exec i s = .next t) (hf : t.fault = some f) : ∃ r, ExecRaises i s r ∧ t = s.raise r := by
  rcases exec_keepsFaultOrRaises i s t h with hkeep | hraise
  · exact absurd (hf.symm.trans (hkeep.trans hs)) nofun
  · exact hraise

/-! ## The faults of a step -/

/-- The faults that a step raises in `s` (60_exceptions.md R191). -/
inductive StepRaises (s : State) : Raised → Prop where
  | fetchFails (hpc : ¬ s.inArray s.pc) : StepRaises s ⟨.fetchFault, s.pc⟩
  | decodeRejects (word : Int) (hf : fetchWord s = some word) (hd : decode word = none) :
      StepRaises s ⟨.decodeFault, word⟩
  | executeRaises (i : Instr) (hi : fetches s i) (r : Raised) (hr : ExecRaises i s.advance r) : StepRaises s r

/-- A fault of the execute phase is taken as one of the step at the address fetched from. -/
theorem advance_raise (s : State) (r : Raised) : s.advance.raise r = s.takeFault s.pc r := by
  unfold State.raise
  rw [advance_instrAddr]
  rfl

/-- Everything a step that records a fault can do: it takes one of the faults of `StepRaises`. -/
theorem step_raises_of_fault (s t : State) (f : FaultRecord) (h : step s = .next t) (hf : t.fault = some f) :
    ∃ r, StepRaises s r ∧ t = s.takeFault s.pc r := by
  obtain ⟨hr, ⟨hpc, rfl⟩ | ⟨word, hw, hd, rfl⟩ | ⟨word, i, hw, hd, he⟩⟩ := step_cases s t h
  · exact ⟨_, .fetchFails hpc, rfl⟩
  · exact ⟨_, .decodeRejects word hw hd, rfl⟩
  · obtain ⟨r, hraise, rfl⟩ := exec_raises_of_fault i s.advance t f ((status_running s).mp hr).2 he hf
    exact ⟨r, .executeRaises i ⟨word, hw, hd⟩ r hraise, advance_raise s r⟩

theorem pcAfter_of_ne_fetchFault (a : Int) (c : FaultCause) (h : c ≠ .fetchFault) : c.pcAfter a = a + 1 := by
  cases c with
  | fetchFault => exact absurd rfl h
  | decodeFault | operandAddressFault | storeAddressFault | arithmeticOverflow | shiftAmountFault => rfl

/-- Settles O32: `takeFault` writes the record and `pc`, and the increment of `pc` stands unless the fetch
failed. -/
theorem faultingStepWritesOnlyRecordAndPc : Obligations.FaultingStepWritesOnlyRecordAndPc := by
  intro s t f h hf
  obtain ⟨⟨cause, info⟩, -, rfl⟩ := step_raises_of_fault s t f h hf
  obtain rfl : ⟨cause, s.pc, info⟩ = f := Option.some.inj hf
  refine ⟨rfl, fun hc => ?_, fun hc => ?_⟩
  · obtain rfl : cause = .fetchFault := hc
    rfl
  · rw [State.takeFault, pcAfter_of_ne_fetchFault s.pc cause hc]

/-! ## The table of causes -/

/-- Which of its two levels an operand fails at (60_exceptions.md R193), and with which index. -/
theorem resolve_error_level (s : State) (mode : Mode) (val : Nat) (r : Raised)
    (h : resolve s mode val = .error r) :
    (mode ≠ .immediate ∧ ¬ s.inArray val ∧ r = ⟨.operandAddressFault, val⟩) ∨
    (mode = .indirect ∧ s.inArray val ∧ ¬ s.inArray (s.reg.read val) ∧
      r = ⟨.operandAddressFault, s.reg.read val⟩) := by
  rw [resolve_error] at h
  cases mode with
  | immediate => exact h.elim
  | direct => exact Or.inl ⟨nofun, h⟩
  | indirect => exact h.imp (And.intro nofun) (And.intro rfl)

theorem resolve_advance (s : State) (mode : Mode) (val : Nat) :
    resolve s.advance mode val = resolve s mode val :=
  resolve_congr s.advance s rfl rfl mode val

theorem fetches_make (s : State) (i : Instr) (op : Operation) (hi : fetches s i) (hop : i.operation = op) :
    fetches s (Instr.make op i.mode i.val) := by
  rwa [← hop, make_fields]

/-- Settles O34: each fault of `StepRaises` and `ExecRaises` stands under the condition of its line in the
table. -/
theorem recordedFaultMatchesItsCause : Obligations.RecordedFaultMatchesItsCause := by
  intro s t f h hf
  obtain ⟨hrun, -⟩ := step_cases s t h
  obtain ⟨r, hr, rfl⟩ := step_raises_of_fault s t f h hf
  obtain rfl : ⟨r.cause, s.pc, r.info⟩ = f := Option.some.inj hf
  cases hr with
  | fetchFails hpc => exact ⟨rfl, hpc, rfl⟩
  | decodeRejects word hw hd => exact ⟨rfl, hw, hd⟩
  | executeRaises i hi r hr =>
    cases hr with
    | operand r hv =>
      rw [resolve_advance] at hv
      rcases resolve_error_level s i.mode i.val r hv with ⟨hm, hval, rfl⟩ | ⟨hm, hval, hp, rfl⟩
      · exact ⟨rfl, i, hi, Or.inl ⟨hm, hval, rfl⟩⟩
      · exact ⟨rfl, i, hi, Or.inr ⟨hm, hval, hp, rfl⟩⟩
    | store v hv hop hd => exact ⟨rfl, ⟨i.mode, i.val, v, hrun, fetches_make s i .str hi hop, hv, rfl⟩, hd⟩
    | overflow v hv ho hop =>
      rw [resolve_advance] at hv
      refine ⟨rfl, ho, i.mode, i.val, hv, ?_⟩
      exact hop.imp (And.imp_left (fetches_make s i .add hi)) (And.imp_left (fetches_make s i .sub hi))
    | shiftAmount v hv hop hneg =>
      rw [resolve_advance] at hv
      exact ⟨rfl, hneg, i.mode, i.val, hv, hop.imp (fetches_make s i .lsl hi) (fetches_make s i .lsr hi)⟩

/-! ## The order of the faults -/

/-- Where the operand resolves, a fault of the execute phase is that of the instruction's own operation. -/
theorem ExecRaises.cause_of_resolve_ok {i : Instr} {s : State} {r : Raised} {v : Int} (h : ExecRaises i s r)
    (hv : resolve s i.mode i.val = .ok v) :
    (r.cause = .storeAddressFault ∧ i.operation = .str) ∨
    (r.cause = .arithmeticOverflow ∧ (i.operation = .add ∨ i.operation = .sub)) ∨
    (r.cause = .shiftAmountFault ∧ (i.operation = .lsl ∨ i.operation = .lsr)) := by
  cases h with
  | operand r he => exact absurd (he.symm.trans hv) nofun
  | store _ _ hi => exact Or.inl ⟨rfl, hi⟩
  | overflow _ _ _ hi => exact Or.inr (Or.inl ⟨rfl, hi.imp And.left And.left⟩)
  | shiftAmount _ _ hi => exact Or.inr (Or.inr ⟨rfl, hi⟩)

/-- A fetched instruction whose operand is unreadable has its step record that fault. -/
theorem step_fault_of_resolve_error (s t : State) (i : Instr) (x : Int) (hr : s.status = .running)
    (hi : fetches s i) (ht : step s = .next t)
    (hv : resolve s i.mode i.val = .error ⟨.operandAddressFault, x⟩) :
    ∃ f, t.fault = some f ∧ f.cause = .operandAddressFault ∧ f.info = x := by
  rw [step_of_fetches s i hr hi,
    exec_operandAddressFault i s.advance _ ((resolve_advance s i.mode i.val).trans hv)] at ht
  obtain rfl := Host.Outcome.next.inj ht
  exact ⟨_, rfl, rfl, rfl⟩

/-- Settles O33: the stages of the step in their order, and after them the fault of the operation. -/
theorem firstFaultInStepOrderIsReported : Obligations.FirstFaultInStepOrderIsReported := by
  intro s hr
  obtain ⟨t, ht⟩ := step_total s hr
  refine ⟨t, ht, fun hpc => ?_, fun word hw hd => ?_, fun i hi =>
    ⟨fun hm hval => ?_, fun hm hval hp => ?_, fun v hv f hf => ?_⟩⟩
  · obtain rfl := Host.Outcome.next.inj ((step_of_pc_outside s hr hpc).symm.trans ht)
    exact ⟨_, rfl, rfl⟩
  · obtain rfl := Host.Outcome.next.inj ((step_of_decode_none s word hr hw hd).symm.trans ht)
    exact ⟨_, rfl, rfl⟩
  · exact step_fault_of_resolve_error s t i _ hr hi ht (resolve_of_val_outside s i.mode i.val hm hval)
  · exact step_fault_of_resolve_error s t i _ hr hi ht (hm ▸ resolve_of_pointer_outside s i.val hval hp)
  · rw [step_of_fetches s i hr hi] at ht
    obtain ⟨r, hraise, rfl⟩ := exec_raises_of_fault i s.advance t f ((status_running s).mp hr).2 ht hf
    obtain rfl := Option.some.inj hf
    exact hraise.cause_of_resolve_ok ((resolve_advance s i.mode i.val).trans hv)

/-! ## The accumulator -/

/-- The operations that write `acc` (10_state.md section 6, the access table). -/
theorem Effect.acc_cases {i : Instr} {s t : State} {v : Int} (h : Effect i s v t) :
    t.acc = s.acc ∨
    i.operation ∈ [Operation.lda, .add, .sub, .and, .orr, .xor, .not, .lsl, .lsr] := by
  cases h with
  | loads hi | complements hi => exact Or.inr (by simp [hi])
  | sums r hi => exact Or.inr (by rcases hi with ⟨hi, -⟩ | ⟨hi, -⟩ <;> simp [hi])
  | combines op hi => exact Or.inr (by rcases hi with hi | hi | hi <;> simp [hi])
  | shifts shift hi => exact Or.inr (by rcases hi with ⟨hi, -⟩ | ⟨hi, -⟩ <;> simp [hi])
  | branches cond => exact Or.inl (by cases cond <;> rfl)
  | halts | stores | storeFaults | jumps => exact Or.inl rfl

/-- Settles O37: only those operations' effects write `acc`, and a fault of the execute phase leaves it as it
is. -/
theorem onlyLdaAndAluWriteAcc : Obligations.OnlyLdaAndAluWriteAcc := by
  intro i s t h hacc
  rcases exec_cases i s t h with ⟨r, -, rfl⟩ | ⟨v, hv, he⟩
  · exact absurd (raise_acc s r) hacc
  · refine ⟨he.acc_cases.resolve_left hacc, ?_⟩
    rcases he.keepsFaultOrRaises hv with hkeep | ⟨r, -, rfl⟩
    · exact hkeep
    · exact absurd (raise_acc s r) hacc

end Sys2Proof.Machine
end

section
/-! PROOFS. The launch and what the host sees of a run (70_reset_and_hazards.md R220 to R225): which launches
start, that every state of a launched run meets the invariant, and the observation of its end. -/

namespace Sys2Proof.Machine

/-! ## Runs from a valid launch -/

/-- A run keeps the invariant of the machine. -/
theorem State.Inv.run_inv {s : State} (hs : s.Inv) (n : Nat) : (run n s).Inv :=
  run_induction State.Inv stepKeepsInvariant n s hs

/-- Settles O47: a launch meets the invariant by `resetState_inv`, and its run keeps it. -/
theorem launchedRunsKeepInvariant : Obligations.LaunchedRunsKeepInvariant := by
  intro c program seed s h n
  obtain ⟨hvalid, rfl⟩ := (launch_next c program seed s).mp h
  exact (resetState_inv c program seed hvalid).run_inv n

/-! ## The launches that start -/

/-- A launch that is not valid is refused (R222). -/
theorem launch_of_not_validLaunch (c : Config) (program seed : List Int) (h : ¬ validLaunch c program seed) :
    launch c program seed = .refused .invalidLaunch :=
  if_neg h

/-- The validity of a launch, with the bounds of R222, R5 and R6 written out. -/
theorem validLaunch_iff (c : Config) (program seed : List Int) :
    validLaunch c program seed ↔
      program.length + seed.length ≤ c.memSize ∧
      (∀ x ∈ program ++ seed, -2 ^ (c.w - 1) ≤ x ∧ x < 2 ^ (c.w - 1)) ∧
      23 ≤ c.w ∧ 1 ≤ c.memSize ∧ (c.memSize : Int) ≤ 2 ^ (c.w - 1) - 1 := by
  rw [List.forall_mem_append]
  constructor
  · rintro ⟨hc, hfit, hwords⟩
    exact ⟨hfit, hwords, hc⟩
  · rintro ⟨hfit, hwords, hc⟩
    exact ⟨hc, hfit, hwords⟩

/-- Settles O49: the stated bounds are the validity of the launch, which is the test that `launch` makes. -/
theorem invalidLaunchIsRefused : Obligations.InvalidLaunchIsRefused := by
  intro c program seed
  rw [← validLaunch_iff]
  exact ⟨fun h => (launch_next c program seed _).mpr ⟨h, rfl⟩, launch_of_not_validLaunch c program seed⟩

/-! ## The observation -/

/-- Settles O52: the observation by the status, whose two terminal values are observed alike. -/
theorem observationIsTheFinalTuple : Obligations.ObservationIsTheFinalTuple := by
  intro s
  unfold observe
  cases s.status with
  | running => exact ⟨fun _ => rfl, fun h => absurd rfl h⟩
  | halted | faulted => exact ⟨nofun, fun _ => rfl⟩

end Sys2Proof.Machine
end

section
/-! PROOFS. The decoder vectors (95_test_vectors.md section 2): the legal words are the encodings of their
instructions, and each illegal word has a field that no operation or no mode takes. -/

namespace Sys2Proof.Machine

/-- The illegal mode code (30_encoding.md R70). -/
theorem decode_none_of_modeField_eq_three (word : Int) (h : modeField word = 3) : decode word = none :=
  (decode_eq_none_iff word).mpr fun ⟨_, _, hm⟩ => hm h

/-- A negative word, or one of `2^22` or more (30_encoding.md R63). -/
theorem decode_none_of_opcodeField_out_of_range (word : Int) (h : opcodeField word < 0 ∨ 15 < opcodeField word) :
    decode word = none :=
  (decode_eq_none_iff word).mpr fun ⟨h0, h15, _⟩ => by omega

/-- Settles O7: each legal word by its encoding and `decode_iff_encode`; the illegal words by their mode field,
which is 3 in the first three, or their opcode field, which is 16 or -1 in the others. -/
theorem specWordsDecode : Obligations.SpecWordsDecode := by
  have legal (word : Int) (i : Instr) : encode i = some word → decode word = some i := (decode_iff_encode word i).mpr
  have badMode := decode_none_of_modeField_eq_three
  have badOpcode := decode_none_of_opcodeField_out_of_range
  exact ⟨legal _ _ rfl, legal _ _ rfl, legal _ _ rfl, legal _ _ rfl, legal _ _ rfl, legal _ _ rfl, legal _ _ rfl,
    legal _ _ rfl, legal _ _ rfl, legal _ _ rfl, badMode _ rfl, badMode _ rfl, badMode _ rfl,
    badOpcode _ (by decide), badOpcode _ (by decide), badOpcode _ (by decide)⟩

end Sys2Proof.Machine
end
